-- ==== Sys2Proof/Word.lean ====
section
/-! DEFINITION. The bit-vector types of the instruction encoding (spec 00_scope.md R9, R10; 30_encoding.md R50, R51).
Only what the spec treats as bits is a bit vector here: bytes, the 40-bit word, and the two fields of the word.
Cells and the accumulator are signed integers (R11, R15), the program counter is a cell index (R17). -/

namespace Sys2Proof

/-- One byte of a program image or of an encoded instruction (R50). -/
abbrev Byte := BitVec 8

/-- The 40-bit unsigned integer that a 5-byte encoded instruction represents (R14, R50). -/
abbrev InsnWord := BitVec 40

/-- The operation code `opc`, word bits [5:0] (R51). -/
abbrev Opcode := BitVec 6

/-- The operand field `opd`, word bits [39:6], all 34 bits of it (R51, R9; 90_conflicts.md C1). -/
abbrev OperandField := BitVec 34

end Sys2Proof
end

