-- ==== Sys2Proof/Syntax.lean ====
section
/-! DEFINITION. The instructions: the closed set of four operations, each with one 34-bit operand field
(00_scope.md R3, 30_encoding.md R51, R55, R57, R60). -/

namespace Sys2Proof

/-- An instruction as the decoder hands it to the dispatch unit: its operation, and `opd`, word bits [39:6].
Every 34-bit operand is admitted, also those no toolchain emits (R52, R59). -/
inductive Instr where
  /-- LoadConst (R88). `opd` is read as the signed constant `sext_17(opd)`. -/
  | loadConst (opd : OperandField)
  /-- LoadMem (R89). `opd` is a cell address. -/
  | loadMem (opd : OperandField)
  /-- StoreMem (R90). `opd` is a cell address. -/
  | storeMem (opd : OperandField)
  /-- Abs (R91). `opd` is the write-back cell address, which is mandatory. -/
  | abs (opd : OperandField)
  deriving DecidableEq, Repr

/-- The symbolic operation kinds, a closed set (R3). -/
inductive OperationKind where
  | loadConst
  | loadMem
  | storeMem
  | abs
  deriving DecidableEq, Repr

/-- The operation of an instruction. -/
def Instr.kind : Instr → OperationKind
  | .loadConst _ => .loadConst
  | .loadMem _ => .loadMem
  | .storeMem _ => .storeMem
  | .abs _ => .abs

/-- The operand field of an instruction: every instruction has exactly one (R62). -/
def Instr.operand : Instr → OperandField
  | .loadConst opd => opd
  | .loadMem opd => opd
  | .storeMem opd => opd
  | .abs opd => opd

/-- The instruction of a kind with an operand field. -/
def OperationKind.instr : OperationKind → OperandField → Instr
  | .loadConst, opd => .loadConst opd
  | .loadMem, opd => .loadMem opd
  | .storeMem, opd => .storeMem opd
  | .abs, opd => .abs opd

end Sys2Proof
end

