-- ==== Sys2Proof/WellFormed.lean ====
section
/-! DEFINITION. Well-formed instructions: those whose word a conforming toolchain produces (30_encoding.md R59, R64,
R65; 00_scope.md R6). The hardware block does not ask this: the decoder accepts, and the machine executes, every
operand field (R52, R59). No meaning in Machine/ depends on this file. -/

namespace Sys2Proof

/-- The operand bits a toolchain always leaves zero (R59): `opd[33:17]` for LoadConst, `opd[33:31]` for the
three operations with an address. -/
def Instr.wellFormed : Instr → Bool
  | .loadConst opd => decide (opd.toNat < 2 ^ 17)
  | .loadMem opd => decide (opd.toNat < 2 ^ 31)
  | .storeMem opd => decide (opd.toNat < 2 ^ 31)
  | .abs opd => decide (opd.toNat < 2 ^ 31)

end Sys2Proof
end

