-- ==== Sys2Proof/Decode.lean ====
section
/-! DEFINITION. The instruction decoder, from bytes and from words, and after it the encoder (30_encoding.md R50 to R61).
The decoder is total: it splits every word into its two fields (R52) and names the operation, or rejects by name. -/

namespace Sys2Proof

/-- Why bytes are no instruction. -/
inductive DecodeError where
  /-- Fewer than the five bytes of a record (R50, R67). Safe: nothing is decoded from it. -/
  | shortRecord
  /-- `opc` is none of 58, 19, 24, 7 (R58). The step turns it into the halt cause UNKNOWN_OPCODE (R95). -/
  | unknownOpcode (opc : Opcode)
  deriving DecidableEq, Repr

/-- The word of a 5-byte record, little-endian:
`b0 + b1*2^8 + b2*2^16 + b3*2^24 + b4*2^32` (R50). -/
def recordWord (b0 b1 b2 b3 b4 : Byte) : InsnWord :=
  b4 ++ (b3 ++ (b2 ++ (b1 ++ b0)))

/-- The `k`-th byte of a word holds its bits [8k+7:8k] (R10). -/
def wordByte (w : InsnWord) (k : Nat) : Byte :=
  w.extractLsb' (8 * k) 8

/-- The 5-byte record of a word, least significant byte first (R50, R53). -/
def wordRecord (w : InsnWord) : List Byte :=
  [wordByte w 0, wordByte w 1, wordByte w 2, wordByte w 3, wordByte w 4]

/-- The numeric decoder `(opc, opd) = (word[5:0], word[39:6])`: total, no masking, no check (R52, R77). -/
def decodeFields (w : InsnWord) : Opcode × OperandField :=
  (w.extractLsb' 0 6, w.extractLsb' 6 34)

/-- The fixed table of operation codes (R55). -/
def operationCode : OperationKind → Opcode
  | .loadConst => 58#6
  | .loadMem => 19#6
  | .storeMem => 24#6
  | .abs => 7#6

/-- The operation a code selects; the other 60 codes are illegal (R55, R58, R80). -/
def operationOfCode (opc : Opcode) : Option OperationKind :=
  if opc = 58#6 then some .loadConst
  else if opc = 19#6 then some .loadMem
  else if opc = 24#6 then some .storeMem
  else if opc = 7#6 then some .abs
  else none

/-- The instruction of a word. It is selected by `word[5:0]` alone (R55); the sentinel word 0, which the step never
decodes (R58, R75), has the undefined code 0. -/
def decode (w : InsnWord) : Except DecodeError Instr :=
  match operationOfCode (decodeFields w).1 with
  | some k => .ok (k.instr (decodeFields w).2)
  | none => .error (.unknownOpcode (decodeFields w).1)

/-- The instruction at the head of a byte sequence, and the bytes after its record. Every instruction has five
bytes (R60). -/
def decodeBytes : List Byte → Except DecodeError (Instr × List Byte)
  | b0 :: b1 :: b2 :: b3 :: b4 :: rest =>
    match decode (recordWord b0 b1 b2 b3 b4) with
    | .ok i => .ok (i, rest)
    | .error e => .error e
  | _ => .error .shortRecord

/-- The numeric encoder `word = c + v * 2^6` (R51, R53): no failure path. -/
def encodeFields (c : Opcode) (v : OperandField) : InsnWord :=
  v ++ c

/-- The word of an instruction (R53, R55). -/
def encode (i : Instr) : InsnWord :=
  encodeFields (operationCode i.kind) i.operand

/-- The five bytes of an instruction, least significant byte first (R53). -/
def encodeBytes (i : Instr) : List Byte :=
  wordRecord (encode i)

/-- The word whose low `nbits` bits are those of `w`, every bit above them 0, in the 40 bits of an instruction. -/
def tableWord (nbits w : Nat) : InsnWord :=
  BitVec.ofNat 40 (w % 2 ^ nbits)

/-- The instruction the decoder reads from a word numbered as spec/opcode_table.json numbers it: the word is laid out
as its five little-endian bytes (R50) and given to `decodeBytes`. -/
def decodeTableWord (nbits w : Nat) : Option Instr :=
  match decodeBytes (wordRecord (tableWord nbits w)) with
  | .ok (i, _) => some i
  | .error _ => none

end Sys2Proof
end

