-- ==== Sys2Proof/Config.lean ====
section
/-! DEFINITION. What is fixed when a KONF3-CORE is built: the implementation parameters N and W (00_scope.md R8). -/

namespace Sys2Proof

/-- The implementation parameters of one machine (R8). They are parameters, not architectural state (R15): a machine
carries them so that a statement about every state speaks of every N and every W (92_eei_decisions.md D2: claims
quantify over N or fix it), and no operation changes them (R109). Assumption log 1. -/
structure Config where
  /-- `N` (MEM_CELLS), the number of memory cells. -/
  memCells : Nat
  /-- `W` (CELL_WIDTH), the width in bits of a cell and of the accumulator, two's complement. -/
  cellWidth : Nat
  deriving DecidableEq, Repr

/-- The default parameters of R8: N = 2048, W = 64. -/
def Config.standard : Config := { memCells := 2048, cellWidth := 64 }

/-- The bounds R8 puts on the parameters: 1 <= N <= 2^31 (D2) and W >= 41 (D1). -/
abbrev Config.Valid (c : Config) : Prop :=
  1 ≤ c.memCells ∧ c.memCells ≤ 2 ^ 31 ∧ 41 ≤ c.cellWidth

/-- What a cell that no Load and no store has set reads as: 0, the value reset and Load give every cell
(R27, R107, R110, R116). -/
abbrev Config.blankCell : Int := 0

end Sys2Proof
end

