-- ==== Sys2Proof/Machine/State.lean ====
section
/-! DEFINITION. The machine state: exactly the five pieces of 10_state.md R15, beside the implementation parameters the
machine was built with (R8). There are no flags and no other control register (R22, R23). -/

namespace Sys2Proof.Machine

/-- The halt-cause register `cause`, a 3-bit read-only status register (R21). Its six codes, 0 to 5, are in
`Cause.code`; codes 6 and 7 are never written. -/
inductive Cause where
  /-- NONE: running. -/
  | none
  /-- END_OF_MEMORY: a step began with `pc >= N` (R73). A clean end. -/
  | endOfMemory
  /-- END_SENTINEL: the fetched word was 0 (R75). A clean end. -/
  | endSentinel
  /-- OUT_OF_BOUNDS_ACCESS: LoadMem, StoreMem or Abs with `opd >= N` (R94). A fault of the machine. -/
  | outOfBoundsAccess
  /-- UNKNOWN_OPCODE: an operation code other than 58, 19, 24 and 7 (R95). A fault of the machine. -/
  | unknownOpcode
  /-- INVALID_WORD: the fetched value lies outside [0, 2^40) (R96). A fault of the machine. -/
  | invalidWord
  deriving DecidableEq, Repr

/-- The memory array, addressed by cell (R36, R38), as a list of (cell index, value): a cell that is not listed reads
as `Config.blankCell`. Assumption log 2. -/
structure Memory where
  cells : List (Nat × Int)
  deriving DecidableEq, Repr

/-- The canonical form of a memory: addresses strictly rising, and no entry equal to what an unlisted cell reads as. -/
def Memory.wf (m : Memory) : Bool :=
  decide (m.cells.Pairwise (fun p q => p.1 < q.1)) && m.cells.all (fun p => decide (p.2 ≠ Config.blankCell))

/-- The memory whose every cell is 0 (R27). -/
def Memory.blank : Memory := { cells := [] }

/-- The state of one KONF3-CORE (R15), with its implementation parameters (R8). -/
structure State where
  /-- The parameters N and W of this machine; no operation changes them (R109). Not architectural state. -/
  cfg : Config
  /-- `acc`, the accumulator: a signed integer of W bits (R16). -/
  acc : Int
  /-- `pc`, the program counter: a cell index in 0..N (R17). -/
  pc : Nat
  /-- `halted`, the Running/Halted status bit (R19). -/
  halted : Bool
  /-- `cause`, the halt-cause register (R21). -/
  cause : Cause
  /-- `mem[0..N-1]`, the memory array (R24). -/
  mem : Memory
  deriving DecidableEq, Repr

/-- Why a step would stop without a next state: there is no such reason. Every exceptional condition of the spec halts
the machine by setting `halted` and `cause` (R92, R97), which is a next state, so the type has no constructor and no
step can fault. -/
inductive Fault where
  deriving DecidableEq, Repr

/-- Why the model would give an instruction no meaning. -/
inductive Refusal where
  /-- Raised by `exec` for an instruction with no meaning yet. Safe: nothing can be proved of it. All four
  instructions have their meaning, so nothing raises it. -/
  | notModelled (mnemonic : String)
  deriving DecidableEq, Repr

/-- The state power-on reset gives a machine with parameters `c` (R27, R107): `acc = 0`, `pc = 0`, `halted = false`,
`cause = NONE`, every cell 0. -/
def State.powerOn (c : Config) : State :=
  { cfg := c, acc := 0, pc := 0, halted := false, cause := .none, mem := Memory.blank }

/-- The machine right after reset, built with the default parameters (R8, R27, R107). -/
def State.reset : State := State.powerOn Config.standard

end Sys2Proof.Machine
end

