-- ==== Sys2Proof/Machine/Operands.lean ====
section
/-! DEFINITION. How each operation reads its operand field (30_encoding.md R56, R57), and the W-bit arithmetic of the
accumulator (00_scope.md R11, 42_abs.md R91). There is no register field, no mode field and no scaling (R57). -/

namespace Sys2Proof.Machine

/-- `sext_17(v)`, the source's `sign_extend_17`: 2^17 is subtracted if and only if bit 16 is set. It is applied to the
whole 34-bit operand, with no masking of bits [33:17] (R56; 92_eei_decisions.md D4). -/
def sext17 (v : OperandField) : Int :=
  if v.getLsbD 16 then (v.toNat : Int) - 2 ^ 17 else (v.toNat : Int)

/-- The operand of LoadMem, StoreMem and Abs: a non-negative cell address, zero-extended from all 34 bits (R57, R44). -/
def cellAddress (opd : OperandField) : Nat :=
  opd.toNat

/-- The integer a W-bit two's-complement register holds after an exact result `v` is put into it (R11). -/
def narrow (w : Nat) (v : Int) : Int :=
  Int.bmod v (2 ^ w)

/-- `abs(x)` in W bits (R11, R91): exact, but that the most negative W-bit value stays as it is (two's-complement wrap,
92_eei_decisions.md D10). -/
def absW (w : Nat) (x : Int) : Int :=
  narrow w (if 0 ≤ x then x else -x)

end Sys2Proof.Machine
end

