-- ==== Sys2Proof/Machine/Ops.lean ====
section
/-! DEFINITION. The named operations over memory and registers, raising an exception, and fetch. -/

namespace Sys2Proof.Machine

/-! ### Memory cells -/

/-- The value a list of cells gives at an address. -/
def readCells : List (Nat × Int) → Nat → Int
  | [], _ => Config.blankCell
  | (b, v) :: rest, a => if a = b then v else readCells rest a

/-- Puts a value that is listed (one other than `Config.blankCell`) at its place in the order of addresses. -/
def insertCell : List (Nat × Int) → Nat → Int → List (Nat × Int)
  | [], a, v => [(a, v)]
  | (b, u) :: rest, a, v =>
    if a < b then (a, v) :: (b, u) :: rest
    else if a = b then (a, v) :: rest
    else (b, u) :: insertCell rest a v

/-- `mem[a]`: the value of a cell (R12, R40). Reading changes nothing (R42). -/
def Memory.read (m : Memory) (a : Nat) : Int :=
  readCells m.cells a

/-- `mem[a] <- v` on the whole cell (R12, R40). The canonical form is kept: storing what an unlisted cell reads as
removes the entry. -/
def Memory.write (m : Memory) (a : Nat) (v : Int) : Memory :=
  if v = Config.blankCell then { cells := m.cells.filter (fun p => decide (p.1 ≠ a)) }
  else { cells := insertCell m.cells a v }

/-- Writes words into consecutive cells from index `a` on, each as a non-negative integer (R110). -/
def Memory.writeWords (m : Memory) (a : Nat) : List InsnWord → Memory
  | [] => m
  | w :: ws => Memory.writeWords (m.write a w.toNat) (a + 1) ws

/-- `MemRead(a, 1)`, defined only for `a < N` (R12, R44). -/
def State.readCell? (s : State) (a : Nat) : Option Int :=
  if a < s.cfg.memCells then some (s.mem.read a) else none

/-- `MemWrite(a, 1, v)`, defined only for `a < N` (R12, R44). -/
def State.writeCell? (s : State) (a : Nat) (v : Int) : Option State :=
  if a < s.cfg.memCells then some { s with mem := s.mem.write a v } else none

/-! ### Registers -/

/-- `acc <- v` (R12). -/
def State.setAcc (s : State) (v : Int) : State :=
  { s with acc := v }

/-- `pc <- pc + 1`, the only write to `pc` any instruction makes (R12, R79, R86). -/
def State.advance (s : State) : State :=
  { s with pc := s.pc + 1 }

/-! ### Taking an exception

`raise C` (R97): `halted <- true`, `cause <- C`; `pc` and every earlier write of the step are kept; nothing is saved
and control goes nowhere. The two clean ends have the same effect. There is no return from an exception: only Load and
reset clear `halted` (R20, R99), see Machine/Block.lean. -/

/-- `raise C` (R12, R97). -/
def State.raise (s : State) (c : Cause) : State :=
  { s with halted := true, cause := c }

/-! ### Fetch and decode -/

/-- The 40-bit word a cell value is, if it is one: the value must lie in [0, 2^40) (R76). -/
def wordOfCell (v : Int) : Option InsnWord :=
  if 0 ≤ v ∧ v < 2 ^ 40 then some (BitVec.ofNat 40 v.toNat) else none

/-- Fetch and decode at `pc`, with the checks in the order of R72 and R98: the end of memory (R73), the sentinel
(R75), a value that is no word (R76), an undefined operation code (R95). It answers the instruction to execute or the
cause that ends the step. -/
def State.fetchInstr (s : State) : Except Cause Instr :=
  match s.readCell? s.pc with
  | none => .error .endOfMemory
  | some v =>
    if v = 0 then .error .endSentinel
    else
      match wordOfCell v with
      | none => .error .invalidWord
      | some w =>
        match decode w with
        | .ok i => .ok i
        | .error _ => .error .unknownOpcode

/-- The state that runs (`halted = false`, `cause = NONE`) with a word in the cell the next step fetches. Where `pc`
addresses no cell it is set to the entry point, cell 0 (R108). -/
def State.placeWord (s : State) (w : InsnWord) : State :=
  let entry := if s.pc < s.cfg.memCells then s.pc else 0
  { s with halted := false, cause := .none, pc := entry, mem := s.mem.write entry w.toNat }

end Sys2Proof.Machine
end

