-- ==== Sys2Proof/Machine/Abs.lean ====
section
/-! DEFINITION. The meaning of Abs (42_abs.md R91). -/

namespace Sys2Proof.Machine

/-- Abs (R91), in this order: `acc <- abs(acc)`; `if opd >= N: raise OUT_OF_BOUNDS_ACCESS`; `MemWrite(opd, 1, acc)`.
The accumulator update is kept when the bound check raises (R97; 90_conflicts.md C6). -/
def execAbs (opd : OperandField) (s : State) : Host.Outcome State Fault Refusal :=
  let s₁ := s.setAcc (absW s.cfg.cellWidth s.acc)
  match s₁.writeCell? (cellAddress opd) s₁.acc with
  | none => .next (s₁.raise .outOfBoundsAccess)
  | some t => .next t.advance

end Sys2Proof.Machine
end

