-- ==== Sys2Proof/Machine/LoadStore.lean ====
section
/-! DEFINITION. The meanings of LoadConst, LoadMem and StoreMem (41_load_store.md R88 to R90). A meaning that completes
advances `pc` (R79); one that raises leaves `pc` as it is (R97). -/

namespace Sys2Proof.Machine

/-- LoadConst (R88): `acc <- sext_17(opd)`. It raises nothing. -/
def execLoadConst (opd : OperandField) (s : State) : Host.Outcome State Fault Refusal :=
  .next (s.setAcc (sext17 opd)).advance

/-- LoadMem (R89): `if opd >= N: raise OUT_OF_BOUNDS_ACCESS`, else `acc <- MemRead(opd, 1)`. -/
def execLoadMem (opd : OperandField) (s : State) : Host.Outcome State Fault Refusal :=
  match s.readCell? (cellAddress opd) with
  | none => .next (s.raise .outOfBoundsAccess)
  | some v => .next (s.setAcc v).advance

/-- StoreMem (R90): `if opd >= N: raise OUT_OF_BOUNDS_ACCESS`, else `MemWrite(opd, 1, acc)`. -/
def execStoreMem (opd : OperandField) (s : State) : Host.Outcome State Fault Refusal :=
  match s.writeCell? (cellAddress opd) s.acc with
  | none => .next (s.raise .outOfBoundsAccess)
  | some t => .next t.advance

end Sys2Proof.Machine
end

