-- ==== Sys2Proof/Machine/Dispatch.lean ====
section
/-! DEFINITION. The 4-way dispatch (40_sequencer.md R80): one arm per operation, each one call of its datapath. -/

namespace Sys2Proof.Machine

def exec (i : Instr) (s : State) : Host.Outcome State Fault Refusal :=
  match i with
  | .loadConst opd => Sys2Proof.Machine.execLoadConst opd s
  | .loadMem opd => Sys2Proof.Machine.execLoadMem opd s
  | .storeMem opd => Sys2Proof.Machine.execStoreMem opd s
  | .abs opd => Sys2Proof.Machine.execAbs opd s

end Sys2Proof.Machine
end

