-- ==== Sys2Proof/Machine/Step.lean ====
section
/-! DEFINITION. The step: one Step request performs one transition (40_sequencer.md R72). -/

namespace Sys2Proof.Machine

/-- `Step()` (R72). While `halted` is true it changes nothing (R78); else it fetches and decodes, ends the run with
the cause `fetchInstr` finds (R73, R75, R76, R95), or executes the instruction (R80). Its report is `State.report` of
the next state (R31). -/
def step (s : State) : Host.Outcome State Fault Refusal :=
  if s.halted then .next s
  else
    match s.fetchInstr with
    | .error c => .next (s.raise c)
    | .ok i => exec i s

/-- `s` with the instruction word of the low `nbits` bits of `w` in the cell the next step fetches, running, so that
`step` runs exactly it. It stands for the host's Load (assumption log 7). -/
def State.withFetchWord (s : State) (nbits w : Nat) : State :=
  s.placeWord (tableWord nbits w)

end Sys2Proof.Machine
end

