-- ==== Sys2Proof/Machine/Flags.lean ====
section
/-! DEFINITION. Status. The machine has no flags, condition codes or predicates (10_state.md R22): its status is
`halted` and `cause`, and the report of a step is read from `halted` (R31). -/

namespace Sys2Proof.Machine

/-- The 3-bit code of a halt cause (R21, R92). -/
def Cause.code : Cause → BitVec 3
  | .none => 0#3
  | .endOfMemory => 1#3
  | .endSentinel => 2#3
  | .outOfBoundsAccess => 3#3
  | .unknownOpcode => 4#3
  | .invalidWord => 5#3

/-- The clean ends, the normal way a program finishes: codes 1 and 2 (R93). -/
def Cause.isCleanEnd : Cause → Bool
  | .none => false
  | .endOfMemory => true
  | .endSentinel => true
  | .outOfBoundsAccess => false
  | .unknownOpcode => false
  | .invalidWord => false

/-- The execution-time faults: codes 3, 4 and 5 (R93). -/
def Cause.isFault : Cause → Bool
  | .none => false
  | .endOfMemory => false
  | .endSentinel => false
  | .outOfBoundsAccess => true
  | .unknownOpcode => true
  | .invalidWord => true

/-- The two results a step reports (R31). -/
inductive Report where
  /-- The step completed, `pc` advanced and `halted` is still false. -/
  | stepped
  /-- After the step `halted` is true. -/
  | halted
  deriving DecidableEq, Repr

/-- What a step that leaves state `s` reports (R31). -/
def State.report (s : State) : Report :=
  if s.halted then .halted else .stepped

end Sys2Proof.Machine
end

