-- ==== Sys2Proof/Machine/Block.lean ====
section
/-! DEFINITION. The five operations at the block's boundary, Reset, Load, Step, ReadCell and Snapshot (10_state.md R28),
and the host's driving loop over Step (60_exceptions.md R106). Each is one atomic transition; the host issues them one
at a time (R34). -/

namespace Sys2Proof.Machine

/-! ### Reset -/

/-- Reset (R107): the power-on state. N and W stay those the machine was built with (R109). -/
def State.resetBlock (s : State) : State :=
  State.powerOn s.cfg

/-! ### Load -/

/-- What Load answers (R28, R104). -/
inductive LoadStatus where
  /-- The program is loaded. -/
  | ok
  /-- The byte length is not a multiple of 5 (R111). The state is unchanged. -/
  | malformedProgram
  /-- More than N records (R112). The state is unchanged. -/
  | programTooLarge
  deriving DecidableEq, Repr

/-- The words of the 5-byte records of a binary program, record i from bytes [5i, 5i+4]; none when the length is not a
multiple of 5 (R67). No header, no checksum, no check of a record (R110; 92_eei_decisions.md D17). -/
def programWords : List Byte → Option (List InsnWord)
  | [] => some []
  | b0 :: b1 :: b2 :: b3 :: b4 :: rest =>
    match programWords rest with
    | some ws => some (recordWord b0 b1 b2 b3 b4 :: ws)
    | none => none
  | _ => none

/-- The state a successful Load leaves (R110): everything as after reset, and the words from cell 0 on. -/
def State.loaded (s : State) (ws : List InsnWord) : State :=
  { State.powerOn s.cfg with mem := Memory.blank.writeWords 0 ws }

/-- Load(bytes) (R110). The length is checked first (R111), then the size (R112); a failed Load changes no state
(R113). -/
def State.load (s : State) (bytes : List Byte) : LoadStatus × State :=
  match programWords bytes with
  | none => (.malformedProgram, s)
  | some ws => if s.cfg.memCells < ws.length then (.programTooLarge, s) else (.ok, s.loaded ws)

/-! ### Observation -/

/-- ReadCell(a) (R32): `mem[a]`, or absent for every `a` outside [0, N), a negative `a` among them
(92_eei_decisions.md D16). -/
def State.readCell (s : State) (a : Int) : Option Int :=
  if a < 0 then none else s.readCell? a.toNat

/-- What Snapshot returns (R33): `acc`, `pc`, `halted` and a copy of all N cells. It is a value of its own: no later
step changes it. -/
structure Snapshot where
  acc : Int
  pc : Nat
  halted : Bool
  cells : List Int
  deriving DecidableEq, Repr

/-- Snapshot (R33). `cause` is exposed beside it (R21, R33), as the register `State.cause`. -/
def State.snapshot (s : State) : Snapshot :=
  { acc := s.acc, pc := s.pc, halted := s.halted, cells := (List.range s.cfg.memCells).map s.mem.read }

/-! ### The block -/

/-- A request at the block's boundary (R28). -/
inductive BlockOp where
  | reset
  | load (bytes : List Byte)
  | step
  | readCell (a : Int)
  | snapshot
  deriving DecidableEq, Repr

/-- The block's answer to a request (R28). -/
inductive BlockReply where
  | resetDone
  | loaded (status : LoadStatus)
  | stepped (report : Report)
  | cell (value : Option Int)
  | snapshot (copy : Snapshot)
  /-- The model's step answered no next state. Safe: no step does (see `Fault` and `Refusal`), so nothing raises it. -/
  | noReport
  deriving DecidableEq, Repr

/-- One block operation: its answer and the state it leaves (R28). -/
def State.perform (s : State) : BlockOp → BlockReply × State
  | .reset => (.resetDone, s.resetBlock)
  | .load bytes => (.loaded (s.load bytes).1, (s.load bytes).2)
  | .step =>
    match step s with
    | .next t => (.stepped t.report, t)
    | .fault _ => (.noReport, s)
    | .refused _ => (.noReport, s)
  | .readCell a => (.cell (s.readCell a), s)
  | .snapshot => (.snapshot s.snapshot, s)

/-- The state a sequence of block operations leaves, one after another (R34). -/
def State.performAll (s : State) : List BlockOp → State
  | [] => s
  | op :: ops => State.performAll (s.perform op).2 ops

/-- The driving loop bounded by a number of Step requests: it stops at the first step that reports HALTED (R106). -/
def State.runAtMost (s : State) : Nat → State
  | 0 => s
  | budget + 1 =>
    match step s with
    | .next t => if t.halted then t else State.runAtMost t budget
    | .fault _ => s
    | .refused _ => s

/-- `run_to_completion` (R106). It needs at most N + 1 - pc requests (R82). -/
def State.runToCompletion (s : State) : State :=
  s.runAtMost (s.cfg.memCells - s.pc + 1)

end Sys2Proof.Machine
end

