-- ==== Sys2Proof/Machine/Toolchain.lean ====
section
/-! DEFINITION. The toolchain contract, outside the hardware block (00_scope.md R6): the assembler's validation, the
operand fold, assembly, and disassembly (30_encoding.md R61 to R71). No meaning of an instruction depends on it. -/

namespace Sys2Proof.Machine

/-! ### Operation names -/

/-- The mnemonic of an operation (R62). -/
def mnemonic : OperationKind → String
  | .loadConst => "LoadConst"
  | .loadMem => "LoadMem"
  | .storeMem => "StoreMem"
  | .abs => "Abs"

/-- The operation of a name: exactly the four mnemonics (R62, R63). -/
def operationNamed (name : String) : Option OperationKind :=
  if name = "LoadConst" then some .loadConst
  else if name = "LoadMem" then some .loadMem
  else if name = "StoreMem" then some .storeMem
  else if name = "Abs" then some .abs
  else none

/-- The name looked up for a decoded numeric code (R61): diagnostic only, never used in execution. -/
inductive OperationName where
  | known (k : OperationKind)
  /-- The "unknown operation" marker. Its text is left open (93_implementation_defined.md, item 3). -/
  | unknownOperation
  deriving DecidableEq, Repr

/-- The symbolic name of a numeric code (R61). -/
def nameOfCode (opc : Opcode) : OperationName :=
  match operationOfCode opc with
  | some k => .known k
  | none => .unknownOperation

/-! ### Assembly -/

/-- The operation field of a textual record: a string, or anything else (R63, R69). -/
inductive TextOperation where
  | name (text : String)
  | notText
  deriving DecidableEq, Repr

/-- The operand field of a textual record: an integer, or anything else (R63, R69). -/
inductive TextOperand where
  | integer (v : Int)
  | notInteger
  deriving DecidableEq, Repr

/-- A textual record as the assembler is given it (R62, R69). R69 allows exactly the two fields operation and operand;
a record that lacks one of them, or has others beside them, is malformed. -/
structure TextRecord where
  operation : Option TextOperation
  operand : Option TextOperand
  /-- The names of the fields the record has beside the two. -/
  otherFields : List String
  deriving DecidableEq, Repr

/-- The record of exactly the two fields of R69. -/
def TextRecord.ofFields (operation : TextOperation) (operand : TextOperand) : TextRecord :=
  { operation := some operation, operand := some operand, otherFields := [] }

/-- The two fields of a record that has exactly these, and none of a malformed one (R69). -/
def TextRecord.fields? (r : TextRecord) : Option (TextOperation × TextOperand) :=
  match r.operation, r.operand, r.otherFields with
  | some operation, some operand, [] => some (operation, operand)
  | _, _, _ => none

/-- The assembler's errors on instruction records, the ValidationError taxonomy of R69 (R104; OperandOutOfRange is one by
90_conflicts.md C5). Each aborts the assembly and no machine state is involved. -/
inductive AsmError where
  /-- The operation is not one of the four (R63). -/
  | unknownOperation
  /-- TypeError-kind: the operand is not an integer (R63). -/
  | typeErrorKind
  /-- The operand is outside its range (R64, R65). -/
  | operandOutOfRange
  deriving DecidableEq, Repr, Inhabited

end Sys2Proof.Machine

namespace Sys2Proof

/-- A free value: the error that a record with a missing or an extra field gives. R69 sends it to the ValidationError
taxonomy and does not say to which error of it. Assumption log 22, DESIGN CHOICE. -/
opaque Config.malformedRecordError : Machine.TextRecord → Machine.AsmError

end Sys2Proof

namespace Sys2Proof.Machine

/-- The 17-bit operand fold of LoadConst (R14, R64): a negative `v` becomes `v + 131072`. -/
def fold17 (v : Int) : Int :=
  if v < 0 then v + 131072 else v

/-- The range an operand must lie in: -65536 to 131071 for LoadConst (R64), 0 to 0x7FFFFFFF for the others (R65). -/
def operandInRange (k : OperationKind) (v : Int) : Bool :=
  match k with
  | .loadConst => decide (-65536 ≤ v) && decide (v ≤ 131071)
  | .loadMem => decide (0 ≤ v) && decide (v ≤ 0x7FFFFFFF)
  | .storeMem => decide (0 ≤ v) && decide (v ≤ 0x7FFFFFFF)
  | .abs => decide (0 ≤ v) && decide (v ≤ 0x7FFFFFFF)

/-- The integer the operand field carries for an operand in range: folded for LoadConst, itself for the others
(R64, R65). -/
def normalizedOperand (k : OperationKind) (v : Int) : Int :=
  match k with
  | .loadConst => fold17 v
  | .loadMem => v
  | .storeMem => v
  | .abs => v

/-- The operation a record's operation field names (R63). -/
def TextOperation.kind? : TextOperation → Option OperationKind
  | .name text => operationNamed text
  | .notText => none

/-- Validation of the two fields, fail-fast: the operation, then that the operand is an integer, then its range (R63 to
R65). It answers the normalized instruction. -/
def validateFields (operation : TextOperation) (operand : TextOperand) : Except AsmError Instr :=
  match operation.kind? with
  | none => .error .unknownOperation
  | some k =>
    match operand with
    | .notInteger => .error .typeErrorKind
    | .integer v =>
      if operandInRange k v then .ok (k.instr (BitVec.ofInt 34 (normalizedOperand k v)))
      else .error .operandOutOfRange

/-- Validation of one record: its shape (R69), then its fields (R63 to R65). A malformed record gives some error of the
taxonomy, a free value (assumption log 22). -/
def validate (r : TextRecord) : Except AsmError Instr :=
  match r.fields? with
  | none => .error (Config.malformedRecordError r)
  | some (operation, operand) => validateFields operation operand

/-- Validation of the records in order: the first error aborts the whole call (R63, R66). -/
def validateAll : List TextRecord → Except AsmError (List Instr)
  | [] => .ok []
  | r :: rs =>
    match validate r with
    | .error e => .error e
    | .ok i =>
      match validateAll rs with
      | .error e => .error e
      | .ok is => .ok (i :: is)

/-- Assembly (R66): the records' encodings in input order, concatenated; an error gives no partial output. -/
def assemble (rs : List TextRecord) : Except AsmError (List Byte) :=
  match validateAll rs with
  | .error e => .error e
  | .ok is => .ok (is.flatMap encodeBytes)

/-! ### Disassembly -/

/-- The operand a disassembler gives: `sext_17(opd)` only when `opc = 58`, else `opd` unchanged (R68). -/
def disassembledOperand (opc : Opcode) (opd : OperandField) : Int :=
  if opc = 58#6 then sext17 opd else (opd.toNat : Int)

/-- Disassembly of a word (R68): the name of its operation code and its operand. -/
def disassembleWord (w : InsnWord) : OperationName × Int :=
  (nameOfCode (decodeFields w).1, disassembledOperand (decodeFields w).1 (decodeFields w).2)

/-- Disassembly of one 5-byte record (R68); none for a byte sequence of another length. -/
def disassemble : List Byte → Option (OperationName × Int)
  | [b0, b1, b2, b3, b4] => some (disassembleWord (recordWord b0 b1 b2 b3 b4))
  | _ => none

/-- The record a disassembled operation is written as (R69). -/
def textRecord (k : OperationKind) (v : Int) : TextRecord :=
  .ofFields (.name (mnemonic k)) (.integer v)

/-- The one-line spelling of an instruction: the mnemonic, one space, the decimal operand (R62;
92_eei_decisions.md D21). -/
def spelling (k : OperationKind) (v : Int) : String :=
  mnemonic k ++ " " ++ toString v

end Sys2Proof.Machine
end

