-- ==== Sys2Proof/Safety.lean ====
section
/-! DEFINITION. What the statements call a good state and a good run. -/

namespace Sys2Proof.Machine

/-- Every listed cell lies in the memory array, cells 0..N-1 (R24, R36). -/
abbrev State.CellsBelowN (s : State) : Prop :=
  ∀ p ∈ s.mem.cells, p.1 < s.cfg.memCells

/-- `halted = false` if and only if `cause = NONE` (R21). -/
abbrev State.CauseAgrees (s : State) : Prop :=
  s.halted = false ↔ s.cause = Cause.none

/-- A value in [-2^16, 2^40 - 1] (R25). -/
abbrev ReachableValue (v : Int) : Prop :=
  -2 ^ 16 ≤ v ∧ v ≤ 2 ^ 40 - 1

/-- The value invariant of R25: the accumulator and every cell hold a reachable value. -/
def State.ValuesReachable (s : State) : Prop :=
  ReachableValue s.acc ∧ ∀ a, ReachableValue (s.mem.read a)

/-- An integer that a W-bit two's-complement register holds: it lies in [-2^(W-1), 2^(W-1) - 1] (R11). -/
abbrev FitsWidth (w : Nat) (v : Int) : Prop :=
  -2 ^ (w - 1) ≤ v ∧ v ≤ 2 ^ (w - 1) - 1

/-- The accumulator and every cell hold a W-bit integer (R11, R15). -/
def State.FitsCells (s : State) : Prop :=
  FitsWidth s.cfg.cellWidth s.acc ∧ ∀ a, FitsWidth s.cfg.cellWidth (s.mem.read a)

/-- The invariant of the machine: what R15, R17, R21, R24 and the canonical form of memory say of its state. -/
structure State.Inv (s : State) : Prop where
  /-- N and W are in their bounds (R8). -/
  cfgValid : s.cfg.Valid
  /-- `pc` lies in 0..N (R17). -/
  pcInRange : s.pc ≤ s.cfg.memCells
  /-- `halted = false` iff `cause = NONE` (R21). -/
  causeAgrees : s.CauseAgrees
  /-- Memory is in canonical form. -/
  memWf : s.mem.wf = true
  /-- No cell outside 0..N-1 is listed (R24). -/
  cellsBelowN : s.CellsBelowN
  /-- Every register and cell holds a W-bit integer (R11, R15). -/
  fitsCells : s.FitsCells

/-- The next step stores to cell `a`: the machine runs, and the instruction it fetches is a StoreMem or an Abs whose
operand is `a`, in bounds (R80, R90, R91). -/
def State.StoresTo (s : State) (a : Nat) : Prop :=
  s.halted = false ∧ a < s.cfg.memCells ∧
    ∃ i : Instr, s.fetchInstr = .ok i ∧ (i.kind = .storeMem ∨ i.kind = .abs) ∧ i.operand.toNat = a

/-- Two machines are equal but for the width W they were built with (R8). -/
structure State.EqualButForWidth (s s' : State) : Prop where
  memCells : s.cfg.memCells = s'.cfg.memCells
  acc : s.acc = s'.acc
  pc : s.pc = s'.pc
  halted : s.halted = s'.halted
  cause : s.cause = s'.cause
  mem : s.mem = s'.mem

/-- The machine has not ended in an execution-time fault: `cause` is not 3, 4 or 5 (R93). -/
abbrev State.WithoutFault (s : State) : Prop :=
  s.cause.isFault = false

/-- The request neither loads nor resets (R20, R99). -/
def BlockOp.keepsProgram : BlockOp → Bool
  | .reset => false
  | .load _ => false
  | .step => true
  | .readCell _ => true
  | .snapshot => true

end Sys2Proof.Machine
end

