-- ==== Sys2Proof/Certificates/Slice0/Obligations.lean ====
section
/-! DEFINITION. The statements for the provers, one `def Obligations.<Name> : Prop` each. A docstring names the rule of
spec/ the statement formalises; a statement of basis "derived" rests on a decision or an inference the spec marks as
its own, or on a choice of the model, and its docstring says which. -/

open Sys2Proof Sys2Proof.Machine

/-! ### The four operations -/

/-- LoadConst completes for every operand and in every state: the accumulator takes `sext_17(opd)`, `pc` advances, and
nothing else changes. Its word is `58 + opd * 2^6`, never the sentinel. 41_load_store.md, LoadConst; that all 34 bits
of the operand take part is the spec's decision D4. -/
def Obligations.LoadConstLoadsTheSignedConstant : Prop :=
  (∀ (opd : OperandField) (s : State),
    exec (.loadConst opd) s = .next { s with acc := sext17 opd, pc := s.pc + 1 }) ∧
  (∀ opd : OperandField, (encode (.loadConst opd)).toNat = 58 + opd.toNat * 2 ^ 6 ∧ encode (.loadConst opd) ≠ 0) ∧
  sext17 0#34 = 0 ∧ sext17 0xFFFF#34 = 65535 ∧ sext17 0x10000#34 = -65536 ∧ sext17 0x1FFFF#34 = -1 ∧
  sext17 0x20000#34 = 131072 ∧ sext17 0x30000#34 = 65536 ∧
  encodeBytes (.loadConst 308#34) = [0x3A#8, 0x4D#8, 0x00#8, 0x00#8, 0x00#8] ∧ sext17 308#34 = 308 ∧
  encodeBytes (.loadConst 0x1FFF1#34) = [0x7A#8, 0xFC#8, 0x7F#8, 0x00#8, 0x00#8] ∧ sext17 0x1FFF1#34 = -15

/-- R89, whole. LoadMem of an address below N copies the cell whole into the accumulator and advances `pc`; of an
address N or more it raises OUT_OF_BOUNDS_ACCESS with `acc`, `mem` and `pc` unchanged. The corner cases of the rule:
its own word, a cell of a loaded program, a cell no program word was loaded into. Its encoding, and the range of the
operands a toolchain gives it. -/
def Obligations.LoadMemLoadsTheAddressedCell : Prop :=
  (∀ (opd : OperandField) (s : State), opd.toNat < s.cfg.memCells →
    exec (.loadMem opd) s = .next { s with acc := s.mem.read opd.toNat, pc := s.pc + 1 }) ∧
  (∀ (opd : OperandField) (s : State), s.cfg.memCells ≤ opd.toNat →
    exec (.loadMem opd) s = .next { s with halted := true, cause := .outOfBoundsAccess }) ∧
  (∀ (opd : OperandField) (s : State), s.halted = false → s.pc < s.cfg.memCells → opd.toNat = s.pc →
    s.mem.read s.pc = ((encode (.loadMem opd)).toNat : Int) →
    step s = .next { s with acc := ((encode (.loadMem opd)).toNat : Int), pc := s.pc + 1 }) ∧
  (∀ (opd : OperandField) (s : State) (ws : List InsnWord), ws.length ≤ s.cfg.memCells →
    opd.toNat < s.cfg.memCells →
    ∃ t, exec (.loadMem opd) (s.loaded ws) = .next t ∧ t.acc = ((ws.getD opd.toNat 0#40).toNat : Int)) ∧
  (∀ opd : OperandField, (encode (.loadMem opd)).toNat = 19 + opd.toNat * 2 ^ 6) ∧
  (∀ (v : Int) (i : Instr), validate (textRecord .loadMem v) = .ok i → i.operand.toNat ≤ 2 ^ 31 - 1) ∧
  encodeBytes (.loadMem 705#34) = [0x53#8, 0xB0#8, 0x00#8, 0x00#8, 0x00#8]

/-- R90, whole. StoreMem to an address below N puts the accumulator into that cell, leaves every other cell and the
accumulator as they were, and advances `pc`; to an address N or more it raises OUT_OF_BOUNDS_ACCESS and writes no cell.
A later fetch of the cell sees the accumulator, wherever the cell lies: the sentinel if it was 0, INVALID_WORD if it was
negative, and the instruction whose word it was. Its encoding, and the range of the operands a
toolchain gives it. -/
def Obligations.StoreMemStoresTheAccumulator : Prop :=
  (∀ (opd : OperandField) (s : State), opd.toNat < s.cfg.memCells →
    ∃ t, exec (.storeMem opd) s = .next t ∧
      t = { s with mem := s.mem.write opd.toNat s.acc, pc := s.pc + 1 } ∧
      t.mem.read opd.toNat = s.acc ∧ ∀ a, a ≠ opd.toNat → t.mem.read a = s.mem.read a) ∧
  (∀ (opd : OperandField) (s : State), s.cfg.memCells ≤ opd.toNat →
    exec (.storeMem opd) s = .next { s with halted := true, cause := .outOfBoundsAccess }) ∧
  (∀ (opd : OperandField) (s t u : State), opd.toNat < s.cfg.memCells → exec (.storeMem opd) s = .next t →
    u.cfg = t.cfg → u.mem = t.mem → u.pc = opd.toNat →
    (s.acc = 0 → u.fetchInstr = .error .endSentinel) ∧
    (s.acc < 0 → u.fetchInstr = .error .invalidWord) ∧
    (∀ i, s.acc = ((encode i).toNat : Int) → u.fetchInstr = .ok i)) ∧
  (∀ opd : OperandField, (encode (.storeMem opd)).toNat = 24 + opd.toNat * 2 ^ 6) ∧
  (∀ (v : Int) (i : Instr), validate (textRecord .storeMem v) = .ok i → i.operand.toNat ≤ 2 ^ 31 - 1) ∧
  encodeBytes (.storeMem 791#34) = [0xD8#8, 0xC5#8, 0x00#8, 0x00#8, 0x00#8]

/-- Abs with an address below N replaces the accumulator by its absolute value, stores that value into the cell, leaves
every other cell as it was, and advances `pc`; with an address N or more the accumulator is still replaced, and then
OUT_OF_BOUNDS_ACCESS is raised with no cell written and `pc` unchanged. 42_abs.md; what `absW` is for the most negative
W-bit value is the spec's decision D10. -/
def Obligations.AbsReplacesAndStoresTheAccumulator : Prop :=
  (∀ (opd : OperandField) (s : State), opd.toNat < s.cfg.memCells →
    ∃ t, exec (.abs opd) s = .next t ∧
      t = { s with
        acc := absW s.cfg.cellWidth s.acc
        mem := s.mem.write opd.toNat (absW s.cfg.cellWidth s.acc)
        pc := s.pc + 1 } ∧
      t.mem.read opd.toNat = absW s.cfg.cellWidth s.acc ∧
      ∀ a, a ≠ opd.toNat → t.mem.read a = s.mem.read a) ∧
  (∀ (opd : OperandField) (s : State), s.cfg.memCells ≤ opd.toNat →
    exec (.abs opd) s = .next { s with
      acc := absW s.cfg.cellWidth s.acc, halted := true, cause := .outOfBoundsAccess }) ∧
  (∀ opd : OperandField, (encode (.abs opd)).toNat = 7 + opd.toNat * 2 ^ 6) ∧
  encodeBytes (.abs 870#34) = [0x87#8, 0xD9#8, 0x00#8, 0x00#8, 0x00#8]

/-- The absolute value in W bits is exact on every W-bit value but the most negative one, which it leaves as it is.
42_abs.md, Arithmetic; the wrap is the spec's decision D10, which no reachable state meets. -/
def Obligations.AbsoluteValueIsExactButAtTheMostNegativeValue : Prop :=
  (∀ (w : Nat) (x : Int), 1 ≤ w → -2 ^ (w - 1) < x → x ≤ 2 ^ (w - 1) - 1 →
    absW w x = |x| ∧ FitsWidth w (absW w x)) ∧
  (∀ w : Nat, 1 ≤ w → absW w (-2 ^ (w - 1)) = -2 ^ (w - 1))

/-- `sext_17` subtracts 2^17 exactly when bit 16 is set; below 2^17 it is the 17-bit two's-complement value; its range;
and the two consumers of it, LoadConst and disassembly. 30_encoding.md section 2; that it takes the whole 34-bit operand
is the spec's decision D4. -/
def Obligations.SignExtensionOfTheOperand : Prop :=
  (∀ v : OperandField, sext17 v = if v.toNat / 2 ^ 16 % 2 = 1 then (v.toNat : Int) - 2 ^ 17 else (v.toNat : Int)) ∧
  (∀ v : OperandField, v.toNat < 2 ^ 17 →
    sext17 v = (v.setWidth 17).toInt ∧ -65536 ≤ sext17 v ∧ sext17 v ≤ 65535) ∧
  (∀ v : OperandField, -2 ^ 16 ≤ sext17 v ∧ sext17 v ≤ 2 ^ 34 - 1) ∧
  (∀ (v : OperandField) (s : State), ∃ t, exec (.loadConst v) s = .next t ∧ t.acc = sext17 v) ∧
  (∀ v : OperandField, disassembleWord (encode (.loadConst v)) = (.known .loadConst, sext17 v))

/-- Out of bounds is decided on all 34 bits of the operand: an operand of N or more halts LoadMem, StoreMem and Abs with
OUT_OF_BOUNDS_ACCESS and memory unchanged, whatever memory holds, so that no cell is read or written; and on a conforming
machine every operand of 2^31 or more, one with a bit of [33:31] set, is one. The faulting instruction is still found at `pc`. 20_memory.md section 3 and
60_exceptions.md section 1; the full-width comparison is the spec's decision D19, the recovery its inference. -/
def Obligations.OutOfBoundsOperandHaltsWithoutAnAccess : Prop :=
  (∀ (i : Instr) (s : State), i.kind ≠ .loadConst → s.cfg.memCells ≤ i.operand.toNat →
    ∃ t, exec i s = .next t ∧ t.halted = true ∧ t.cause = .outOfBoundsAccess ∧ t.pc = s.pc ∧ t.mem = s.mem ∧
      t.cfg = s.cfg ∧ (i.kind ≠ .abs → t.acc = s.acc)) ∧
  (∀ (i : Instr) (s : State) (m : Memory), i.kind ≠ .loadConst → s.cfg.memCells ≤ i.operand.toNat →
    ∃ t, exec i s = .next t ∧ exec i { s with mem := m } = .next { t with mem := m }) ∧
  (∀ (i : Instr) (s : State), i.kind ≠ .loadConst → s.cfg.Valid → 2 ^ 31 ≤ i.operand.toNat →
    ∃ t, exec i s = .next t ∧ t.cause = .outOfBoundsAccess ∧ t.mem = s.mem) ∧
  (∀ (s t : State), s.halted = false → step s = .next t → t.halted = true → t.cause = .outOfBoundsAccess →
    ∃ w i, t.readCell t.pc = some ((w : InsnWord).toNat : Int) ∧ decode w = .ok i ∧
      (decodeFields w).2 = i.operand ∧ t.cfg.memCells ≤ i.operand.toNat)

/-- R80, whole: dispatch selects on the operation code alone, and sends the step to exactly one datapath: code 58 to
LoadConst, 19 to LoadMem, 24 to StoreMem, 7 to Abs, each with the operand field of the word. Each datapath writes only
what its row of the table says (the frame of the four operations: nothing else changes but `pc` and, where it raises,
`halted` and `cause`), reads only what its row says, with an operand in bounds or out of them, and raises
OUT_OF_BOUNDS_ACCESS or, for LoadConst, nothing; any other code raises UNKNOWN_OPCODE. -/
def Obligations.DatapathsReadAndWriteOnlyTheirTable : Prop :=
  (∀ (s : State) (w : InsnWord), s.halted = false → s.pc < s.cfg.memCells → s.mem.read s.pc = (w.toNat : Int) →
    ((decodeFields w).1 = 58#6 → step s = exec (.loadConst (decodeFields w).2) s) ∧
    ((decodeFields w).1 = 19#6 → step s = exec (.loadMem (decodeFields w).2) s) ∧
    ((decodeFields w).1 = 24#6 → step s = exec (.storeMem (decodeFields w).2) s) ∧
    ((decodeFields w).1 = 7#6 → step s = exec (.abs (decodeFields w).2) s)) ∧
  (∀ (i : Instr) (s t : State), exec i s = .next t →
    t.cfg = s.cfg ∧ (t.pc = s.pc ∨ t.pc = s.pc + 1) ∧
    ((t.halted = s.halted ∧ t.cause = s.cause) ∨
      (i.kind ≠ .loadConst ∧ t.halted = true ∧ t.cause = .outOfBoundsAccess)) ∧
    (i.kind = .storeMem → t.acc = s.acc) ∧
    (i.kind = .loadConst ∨ i.kind = .loadMem → t.mem = s.mem) ∧
    (∀ a, a ≠ i.operand.toNat → t.mem.read a = s.mem.read a)) ∧
  (∀ (opd : OperandField) (s s' : State), s.cfg = s'.cfg →
    ∃ t t', exec (.loadConst opd) s = .next t ∧ exec (.loadConst opd) s' = .next t' ∧ t.acc = t'.acc) ∧
  (∀ (opd : OperandField) (s s' : State), s.cfg = s'.cfg → opd.toNat < s.cfg.memCells →
    s.mem.read opd.toNat = s'.mem.read opd.toNat →
    ∃ t t', exec (.loadMem opd) s = .next t ∧ exec (.loadMem opd) s' = .next t' ∧ t.acc = t'.acc) ∧
  (∀ (opd : OperandField) (s s' : State), s.cfg = s'.cfg → s.acc = s'.acc → opd.toNat < s.cfg.memCells →
    (∃ t t', exec (.storeMem opd) s = .next t ∧ exec (.storeMem opd) s' = .next t' ∧
      t.mem.read opd.toNat = t'.mem.read opd.toNat) ∧
    (∃ t t', exec (.abs opd) s = .next t ∧ exec (.abs opd) s' = .next t' ∧ t.acc = t'.acc ∧
      t.mem.read opd.toNat = t'.mem.read opd.toNat)) ∧
  (∀ (opd : OperandField) (s s' : State), s.cfg = s'.cfg → s.cfg.memCells ≤ opd.toNat →
    (∃ t t', exec (.loadMem opd) s = .next t ∧ exec (.loadMem opd) s' = .next t' ∧ t.acc = s.acc ∧
      t'.acc = s'.acc ∧ t.mem = s.mem ∧ t'.mem = s'.mem) ∧
    (∃ t t', exec (.storeMem opd) s = .next t ∧ exec (.storeMem opd) s' = .next t' ∧ t.acc = s.acc ∧
      t'.acc = s'.acc ∧ t.mem = s.mem ∧ t'.mem = s'.mem) ∧
    (s.acc = s'.acc → ∃ t t', exec (.abs opd) s = .next t ∧ exec (.abs opd) s' = .next t' ∧ t.acc = t'.acc ∧
      t.mem = s.mem ∧ t'.mem = s'.mem)) ∧
  (∀ (w w' : InsnWord), (decodeFields w).1 = (decodeFields w').1 →
    (∀ i, decode w = .ok i → ∃ i', decode w' = .ok i' ∧ i'.kind = i.kind)) ∧
  (∀ (s : State) (w : InsnWord), s.halted = false → s.pc < s.cfg.memCells → s.mem.read s.pc = (w.toNat : Int) →
    w ≠ 0 → (decodeFields w).1 ≠ 58#6 → (decodeFields w).1 ≠ 19#6 → (decodeFields w).1 ≠ 24#6 →
    (decodeFields w).1 ≠ 7#6 → step s = .next { s with halted := true, cause := .unknownOpcode })

/-! ### Encoding -/

/-- R50, whole: five bytes, little-endian, are one word, each instruction has exactly one record of five bytes, and a
record is stored as a single cell holding that 40-bit unsigned integer. -/
def Obligations.RecordIsALittleEndianWord : Prop :=
  (∀ b0 b1 b2 b3 b4 : Byte, (recordWord b0 b1 b2 b3 b4).toNat =
    b0.toNat + b1.toNat * 2 ^ 8 + b2.toNat * 2 ^ 16 + b3.toNat * 2 ^ 24 + b4.toNat * 2 ^ 32) ∧
  (∀ i : Instr, (encodeBytes i).length = 5) ∧
  (∀ (bytes rest : List Byte) (i : Instr), decodeBytes bytes = .ok (i, rest) → bytes = encodeBytes i ++ rest) ∧
  (∀ (s : State) (i : Instr), 1 ≤ s.cfg.memCells →
    ∃ t, s.load (encodeBytes i) = (.ok, t) ∧ t.mem.read 0 = ((encode i).toNat : Int) ∧
      ∀ a, a ≠ 0 → t.mem.read a = 0)

/-- The encoder maps a code and an operand to `word = c + v * 2^6`, whose record has the least significant byte first, and
the decoder splits every word back into both fields. 30_encoding.md section 1; the split over all 34 bits is the spec's
decision D3, the round trip its inference. -/
def Obligations.FieldsRoundTripThroughTheWord : Prop :=
  (∀ (c : Opcode) (v : OperandField), (encodeFields c v).toNat = c.toNat + v.toNat * 2 ^ 6 ∧
    decodeFields (encodeFields c v) = (c, v)) ∧
  (∀ w : InsnWord, (decodeFields w).1.toNat = w.toNat % 2 ^ 6 ∧ (decodeFields w).2.toNat = w.toNat / 2 ^ 6 ∧
    encodeFields (decodeFields w).1 (decodeFields w).2 = w) ∧
  (∀ (w : InsnWord) (k : Nat), k < 5 →
    ((wordRecord w).getD k 0#8).toNat = w.toNat / 2 ^ (8 * k) % 2 ^ 8)

/-- Decode and encode agree, both ways, with every operand at every value of its 34 bits: the decoder reads an
instruction from its record and leaves the bytes after it, and a word that decodes to an instruction is that
instruction's word. 30_encoding.md sections 1 and 2; all 34 operand bits by the spec's decision D3. -/
def Obligations.DecodeAndEncodeAgree : Prop :=
  (∀ (i : Instr) (rest : List Byte), decode (encode i) = .ok i ∧
    decodeBytes (encodeBytes i ++ rest) = .ok (i, rest)) ∧
  (∀ (w : InsnWord) (i : Instr), decode w = .ok i → encode i = w) ∧
  (∀ i j : Instr, encode i = encode j → i = j)

/-- R58 and R95, whole. Of the 64 operation codes four are defined. A fetched word other than 0 with one of the other 60,
code 0 with a non-zero operand among them, halts the machine with UNKNOWN_OPCODE and changes nothing else; a fetched
word with one of the four runs; word 0 is not decoded but ends the run. -/
def Obligations.IllegalOpcodesHaltTheMachine : Prop :=
  (∀ (s : State) (w : InsnWord), s.halted = false → s.pc < s.cfg.memCells → s.mem.read s.pc = (w.toNat : Int) →
    (w.toNat = 0 → step s = .next { s with halted := true, cause := .endSentinel }) ∧
    (w.toNat ≠ 0 → w.toNat % 64 ≠ 58 → w.toNat % 64 ≠ 19 → w.toNat % 64 ≠ 24 → w.toNat % 64 ≠ 7 →
      step s = .next { s with halted := true, cause := .unknownOpcode }) ∧
    (w.toNat % 64 = 58 ∨ w.toNat % 64 = 19 ∨ w.toNat % 64 = 24 ∨ w.toNat % 64 = 7 →
      ∃ i, decode w = .ok i ∧ step s = exec i s)) ∧
  (∀ (s : State) (w : InsnWord), s.halted = false → s.pc < s.cfg.memCells → s.mem.read s.pc = (w.toNat : Int) →
    w.toNat % 64 = 0 → w.toNat / 64 ≠ 0 →
    step s = .next { s with halted := true, cause := .unknownOpcode })

/-- The operation codes: a word is an instruction exactly when its low six bits are 58, 19, 24 or 7, and then its upper
34 bits are the operand of that instruction, with no part in the selection. 30_encoding.md section 2 (R55's codes; the
34-bit operand is the spec's decision D3). -/
def Obligations.OpcodeSelectsTheInstruction : Prop :=
  ∀ w : InsnWord,
    (w.toNat % 64 = 58 → decode w = .ok (.loadConst (BitVec.ofNat 34 (w.toNat / 64)))) ∧
    (w.toNat % 64 = 19 → decode w = .ok (.loadMem (BitVec.ofNat 34 (w.toNat / 64)))) ∧
    (w.toNat % 64 = 24 → decode w = .ok (.storeMem (BitVec.ofNat 34 (w.toNat / 64)))) ∧
    (w.toNat % 64 = 7 → decode w = .ok (.abs (BitVec.ofNat 34 (w.toNat / 64)))) ∧
    ((∃ i, decode w = .ok i) ↔
      w.toNat % 64 = 58 ∨ w.toNat % 64 = 19 ∨ w.toNat % 64 = 24 ∨ w.toNat % 64 = 7)

/-- Words written out from the spec's encodings decode to the instructions they stand for: 95_test_vectors.md sections
1.1 and 2.1, and the four rows of the opcode table with every operand bit set. -/
def Obligations.WrittenOutWordsDecode : Prop :=
  decodeTableWord 40 0x4D3A = some (.loadConst 308#34) ∧
  decodeTableWord 40 0xB053 = some (.loadMem 705#34) ∧
  decodeTableWord 40 0xC5D8 = some (.storeMem 791#34) ∧
  decodeTableWord 40 0xD987 = some (.abs 870#34) ∧
  decodeTableWord 40 0x7FFFFA = some (.loadConst 0x1FFFF#34) ∧
  decodeTableWord 40 0x2000000013 = some (.loadMem 0x80000000#34) ∧
  decodeTableWord 40 0xFFFFFFFFFA = some (.loadConst 0x3FFFFFFFF#34) ∧
  decodeTableWord 40 0xFFFFFFFFD3 = some (.loadMem 0x3FFFFFFFF#34) ∧
  decodeTableWord 40 0xFFFFFFFFD8 = some (.storeMem 0x3FFFFFFFF#34) ∧
  decodeTableWord 40 0xFFFFFFFFC7 = some (.abs 0x3FFFFFFFF#34) ∧
  decodeTableWord 40 0x40 = none ∧ decodeTableWord 40 0x3F = none ∧ decodeTableWord 40 0 = none

/-! ### The step -/

/-- A step of a running machine runs the decoded instruction: when the cell at `pc` holds the word of a record that
decodes to an instruction, whether or not a toolchain emits it, the step is `exec` of it. 40_sequencer.md section 1. -/
def Obligations.StepRunsTheDecodedInstruction : Prop :=
  ∀ (s : State) (w : InsnWord) (i : Instr), s.halted = false → s.pc < s.cfg.memCells →
    s.mem.read s.pc = (w.toNat : Int) → decodeBytes (wordRecord w) = .ok (i, []) → step s = exec i s

/-- A word placed where the next step fetches is run by the next step, on every machine with a cell. The model's own
operation (assumption log 7), for 40_sequencer.md section 1. -/
def Obligations.PlacedWordIsRunNext : Prop :=
  ∀ (s : State) (i : Instr), 1 ≤ s.cfg.memCells →
    step (s.withFetchWord 40 (encode i).toNat) = exec i (s.withFetchWord 40 (encode i).toNat) ∧
    (s.withFetchWord 40 (encode i).toNat).acc = s.acc ∧
    ∀ a, a ≠ (s.withFetchWord 40 (encode i).toNat).pc →
      (s.withFetchWord 40 (encode i).toNat).mem.read a = s.mem.read a

/-- R79, whole: when the operation completes without raising (LoadConst, or an operand below N), the step sets
`pc <- pc + 1` and reports STEPPED, `halted` stays false, `cause` stays NONE, and `pc + 1` is at most N. -/
def Obligations.CompletedStepAdvancesThePc : Prop :=
  ∀ (s : State) (i : Instr), s.halted = false → s.cause = .none → s.fetchInstr = .ok i →
    (i.kind = .loadConst ∨ i.operand.toNat < s.cfg.memCells) →
    ∃ t, step s = .next t ∧ s.perform .step = (.stepped .stepped, t) ∧ t.pc = s.pc + 1 ∧ t.halted = false ∧
      t.cause = .none ∧ t.pc ≤ s.cfg.memCells

/-- R73, whole: a step that begins with `pc >= N` ends the run with END_OF_MEMORY, reports HALTED and changes nothing
else, whatever the memory holds; and `pc` equals N only after a completed step at `pc = N - 1`. -/
def Obligations.EndOfMemoryHalts : Prop :=
  (∀ s : State, s.halted = false → s.cfg.memCells ≤ s.pc →
    step s = .next { s with halted := true, cause := .endOfMemory } ∧
    s.perform .step = (.stepped .halted, { s with halted := true, cause := .endOfMemory })) ∧
  (∀ s t : State, s.halted = false → s.pc < s.cfg.memCells → step s = .next t → t.pc = s.cfg.memCells →
    s.pc = s.cfg.memCells - 1 ∧ t.halted = false)

/-- R75, whole: a fetched 0 ends the run with END_SENTINEL, whatever put it there, with nothing decoded, executed or
advanced; and that cause arises from a fetched 0 alone. -/
def Obligations.SentinelWordHalts : Prop :=
  (∀ s : State, s.halted = false → s.pc < s.cfg.memCells → s.mem.read s.pc = 0 →
    step s = .next { s with halted := true, cause := .endSentinel } ∧
    s.perform .step = (.stepped .halted, { s with halted := true, cause := .endSentinel })) ∧
  (∀ s t : State, s.halted = false → s.cause ≠ .endSentinel → step s = .next t → t.cause = .endSentinel →
    s.pc < s.cfg.memCells ∧ s.mem.read s.pc = 0)

/-- A fetched value that is no 40-bit word raises INVALID_WORD and changes nothing but `halted` and `cause`.
40_sequencer.md section 1 and 60_exceptions.md section 1; the spec's decision D5. -/
def Obligations.ValueThatIsNoWordHalts : Prop :=
  (∀ s : State, s.halted = false → s.pc < s.cfg.memCells →
    (s.mem.read s.pc < 0 ∨ 2 ^ 40 ≤ s.mem.read s.pc) →
    step s = .next { s with halted := true, cause := .invalidWord }) ∧
  (∀ s t : State, s.halted = false → s.cause ≠ .invalidWord → step s = .next t → t.cause = .invalidWord →
    s.pc < s.cfg.memCells ∧ (s.mem.read s.pc < 0 ∨ 2 ^ 40 ≤ s.mem.read s.pc))

/-- R97, whole: a step that halts the machine sets `halted` and the one cause, leaves `pc`, and keeps every other part
of the state as it was before the step; it reports HALTED. The one write a step makes before it raises is kept: an Abs,
which halts only where its operand is out of bounds, leaves the absolute value in the accumulator. Every other halt
leaves the accumulator too. The cause is the one the fetch found, or OUT_OF_BOUNDS_ACCESS where an instruction was
fetched. The two clean ends have the same effect. -/
def Obligations.RaisingChangesOnlyHaltedAndCause : Prop :=
  ∀ s t : State, s.halted = false → step s = .next t → t.halted = true →
    s.perform .step = (.stepped .halted, t) ∧ t.cause ≠ .none ∧ t.pc = s.pc ∧
    (∀ c : Cause, s.fetchInstr = .error c → t = { s with halted := true, cause := c }) ∧
    (∀ i : Instr, s.fetchInstr = .ok i → i.kind ≠ .loadConst ∧ s.cfg.memCells ≤ i.operand.toNat ∧
      (i.kind ≠ .abs → t = { s with halted := true, cause := .outOfBoundsAccess }) ∧
      (i.kind = .abs →
        t = { s with acc := absW s.cfg.cellWidth s.acc, halted := true, cause := .outOfBoundsAccess }))

/-- A running machine halts in exactly five ways, each recorded under its own cause: the conditions of the causes, in
the order of the checks, exclude one another. 60_exceptions.md sections 1 and 2; the codes and INVALID_WORD are the
spec's decisions D6 and D5. -/
def Obligations.MachineHaltsInExactlyFiveWays : Prop :=
  ∀ s t : State, s.halted = false → s.cause = .none → step s = .next t →
    (t.cause = .endOfMemory ↔ s.cfg.memCells ≤ s.pc) ∧
    (t.cause = .endSentinel ↔ s.pc < s.cfg.memCells ∧ s.mem.read s.pc = 0) ∧
    (t.cause = .invalidWord ↔
      s.pc < s.cfg.memCells ∧ (s.mem.read s.pc < 0 ∨ 2 ^ 40 ≤ s.mem.read s.pc)) ∧
    (t.cause = .unknownOpcode ↔ s.pc < s.cfg.memCells ∧ ∃ w : InsnWord, s.mem.read s.pc = (w.toNat : Int) ∧
      w ≠ 0 ∧ ∀ i, decode w ≠ .ok i) ∧
    (t.cause = .outOfBoundsAccess ↔ s.pc < s.cfg.memCells ∧ ∃ i : Instr,
      s.mem.read s.pc = ((encode i).toNat : Int) ∧ i.kind ≠ .loadConst ∧ s.cfg.memCells ≤ i.operand.toNat) ∧
    (t.halted = true ↔ t.cause ≠ .none)

/-- The table of the effects of one step of a running machine: its ten paths, each with the state it leaves.
40_sequencer.md section 2 (the table of R81, which the spec marks as its own inference). -/
def Obligations.StepFollowsTheEffectTable : Prop :=
  ∀ s : State, s.halted = false → s.cause = .none →
    (s.cfg.memCells ≤ s.pc → step s = .next { s with halted := true, cause := .endOfMemory }) ∧
    (s.pc < s.cfg.memCells →
      (s.mem.read s.pc = 0 → step s = .next { s with halted := true, cause := .endSentinel }) ∧
      (s.mem.read s.pc < 0 ∨ 2 ^ 40 ≤ s.mem.read s.pc →
        step s = .next { s with halted := true, cause := .invalidWord }) ∧
      ∀ v : Nat, s.mem.read s.pc = (v : Int) → 0 < v → v < 2 ^ 40 →
        (v % 64 ≠ 58 → v % 64 ≠ 19 → v % 64 ≠ 24 → v % 64 ≠ 7 →
          step s = .next { s with halted := true, cause := .unknownOpcode }) ∧
        (v % 64 = 58 → step s = .next { s with
          acc := if v / 64 / 2 ^ 16 % 2 = 1 then ((v / 64 : Nat) : Int) - 2 ^ 17 else ((v / 64 : Nat) : Int)
          pc := s.pc + 1 }) ∧
        (v % 64 = 19 → s.cfg.memCells ≤ v / 64 →
          step s = .next { s with halted := true, cause := .outOfBoundsAccess }) ∧
        (v % 64 = 19 → v / 64 < s.cfg.memCells →
          step s = .next { s with acc := s.mem.read (v / 64), pc := s.pc + 1 }) ∧
        (v % 64 = 24 → s.cfg.memCells ≤ v / 64 →
          step s = .next { s with halted := true, cause := .outOfBoundsAccess }) ∧
        (v % 64 = 24 → v / 64 < s.cfg.memCells →
          step s = .next { s with mem := s.mem.write (v / 64) s.acc, pc := s.pc + 1 }) ∧
        (v % 64 = 7 → s.cfg.memCells ≤ v / 64 →
          step s = .next { s with
            acc := absW s.cfg.cellWidth s.acc, halted := true, cause := .outOfBoundsAccess }) ∧
        (v % 64 = 7 → v / 64 < s.cfg.memCells →
          step s = .next { s with
            acc := absW s.cfg.cellWidth s.acc
            mem := s.mem.write (v / 64) (absW s.cfg.cellWidth s.acc)
            pc := s.pc + 1 }))

/-- R17, whole: a step fetches the cell whose index `pc` holds; a completed step adds one to `pc`, a halting step leaves
it; it never wraps, and reaches N only through a completed step at N - 1, after which the next step halts. So from reset
on, under any block operations on a machine of any size, it lies in 0..N. Its reset value is 0. -/
def Obligations.ProgramCounterStaysInRange : Prop :=
  (∀ s s' : State, s.pc < s.cfg.memCells → s'.pc < s'.cfg.memCells → s.mem.read s.pc = s'.mem.read s'.pc →
    s.fetchInstr = s'.fetchInstr) ∧
  (∀ s t : State, s.halted = false → step s = .next t →
    (t.halted = false ∧ t.pc = s.pc + 1 ∧ t.pc ≤ s.cfg.memCells ∧
      (t.pc = s.cfg.memCells → s.pc = s.cfg.memCells - 1 ∧ ∃ u, step t = .next u ∧ u.halted = true)) ∨
    (t.halted = true ∧ t.pc = s.pc)) ∧
  State.reset.pc = 0 ∧
  (∀ (c : Config) (ops : List BlockOp), ((State.powerOn c).performAll ops).pc ≤ c.memCells)

/-- R18, whole: no instruction reads `pc` as an operand, and only the increment writes it. Executing the same
instruction with another `pc` gives the same accumulator, memory, `halted` and `cause`, and the same increment. -/
def Obligations.NoInstructionReadsThePc : Prop :=
  ∀ (i : Instr) (s : State) (p : Nat), ∃ t, exec i s = .next t ∧
    ((t.pc = s.pc ∧ exec i { s with pc := p } = .next { t with pc := p }) ∨
     (t.pc = s.pc + 1 ∧ exec i { s with pc := p } = .next { t with pc := p + 1 }))

/-- A halted machine is left by Load and reset alone: any sequence of the other block operations leaves the whole state,
and `halted` among it, as it was, and a step requested then reports HALTED. 10_state.md section 2 and 60_exceptions.md
section 2; that the requested step changes nothing is the spec's decision D7. -/
def Obligations.HaltedMachineIsLeftOnlyByLoadOrReset : Prop :=
  (∀ (s : State) (ops : List BlockOp), s.halted = true → ops.all BlockOp.keepsProgram = true →
    s.performAll ops = s) ∧
  (∀ s : State, s.halted = true → s.perform .step = (.stepped .halted, s)) ∧
  (∀ (s t : State) (ops : List BlockOp), ops.all BlockOp.keepsProgram = true → s.performAll ops = t →
    s.halted = true → t.halted = true)

/-- `cause` affects nothing: a step of the same machine with another `cause` leaves the same accumulator, `pc`,
`halted` and memory. 10_state.md sections 1 and 2; the register is the spec's decision D6. -/
def Obligations.CauseAffectsNothingElse : Prop :=
  ∀ (s : State) (c : Cause), ∃ t u, step s = .next t ∧ step { s with cause := c } = .next u ∧
    { t with cause := Cause.none } = { u with cause := Cause.none }

/-- Every step reports exactly one of STEPPED and HALTED, STEPPED exactly when it completed with `pc` advanced and the
machine still running; no step faults, refuses, or is left without a report. 10_state.md section 6. -/
def Obligations.EveryStepReports : Prop :=
  ∀ s : State, ∃ t, step s = .next t ∧ s.perform .step = (.stepped t.report, t) ∧
    (t.report = .stepped ↔ s.halted = false ∧ t.halted = false ∧ t.pc = s.pc + 1) ∧
    (t.report = .halted ↔ t.halted = true)

/-! ### Runs -/

/-- Every run halts: every step of a running machine halts it or adds one to `pc`, and from any state N - pc + 1 steps
bring the machine to `halted = true`. 40_sequencer.md section 2 (R82, which the spec marks as its inference). -/
def Obligations.EveryRunHalts : Prop :=
  (∀ s t : State, s.halted = false → step s = .next t →
    t.halted = true ∨ (t.halted = false ∧ t.pc = s.pc + 1 ∧ s.pc < s.cfg.memCells)) ∧
  ∀ s : State, ∃ t : State, Sys2Proof.core.run (s.cfg.memCells - s.pc + 1) s = .next t ∧ t.halted = true

/-- `run_to_completion` stops in the first halted state of the run: it is reached by issuing Step requests, the machine
was running before each of them, and no further request changes it. 60_exceptions.md section 3; the bound on the
requests is the spec's inference (R82). -/
def Obligations.DrivingLoopStopsAtTheFirstHalt : Prop :=
  ∀ s : State, s.halted = false → ∃ n, n ≤ s.cfg.memCells - s.pc ∧
    s.runToCompletion = s.performAll (List.replicate (n + 1) .step) ∧ s.runToCompletion.halted = true ∧
    (∀ m, m ≤ n → (s.performAll (List.replicate m .step)).halted = false) ∧
    (∀ m, n + 1 ≤ m → s.performAll (List.replicate m .step) = s.runToCompletion)

/-! ### Invariants -/

/-- The state after reset meets the invariant and the value invariant. The invariant gathers what 10_state.md sections 1
to 3 say of N, W, `pc`, `halted`, `cause` and the width of registers and cells, and one clause of the model's own choice:
memory is in canonical form, with no cell outside 0..N-1 listed (assumption log 2, DESIGN CHOICE). N and W are carried
in the state, and values are integers, by assumption log 1 and 3 (DESIGN CHOICE). The reset values are the spec's
decision D8. -/
def Obligations.ResetMeetsTheInvariant : Prop :=
  State.reset.Inv ∧ State.reset.ValuesReachable

/-- Every step keeps the invariant, from every state that meets it: N and W in bounds, `pc` in 0..N, `halted = false`
iff `cause = NONE`, every register and cell a W-bit integer (10_state.md sections 1 to 3: R15, R17, R21 and R24; the
widths are the spec's decision D1, `cause` its decision D6); and, the model's own choice, memory in canonical form with
no cell outside 0..N-1 listed (assumption log 2, DESIGN CHOICE). That N and W are carried in the state, and that values
are integers, are assumption log 1 and 3 (DESIGN CHOICE). -/
def Obligations.EveryStepKeepsTheInvariant : Prop :=
  ∀ s t : State, s.Inv → step s = .next t → t.Inv

/-- Every block operation keeps the invariant: after any sequence of them, Load of any bytes among them, a machine built
with valid parameters and reset meets it. 10_state.md sections 1 to 6; reset is the spec's decision D8. The clause of
the invariant on the canonical form of memory is the model's own choice (assumption log 2, DESIGN CHOICE), as are the
parameters carried in the state and values as integers (assumption log 1 and 3, DESIGN CHOICE). -/
def Obligations.EveryBlockOperationKeepsTheInvariant : Prop :=
  (∀ (s : State) (op : BlockOp), s.Inv → (s.perform op).2.Inv) ∧
  (∀ (c : Config) (ops : List BlockOp), c.Valid → ((State.powerOn c).performAll ops).Inv)

/-- The value invariant: after any sequence of block operations from reset the accumulator and every cell lie in
[-2^16, 2^40 - 1], and a single step keeps that from every state of a conforming machine. So no operation overflows:
Abs gives the exact absolute value there. 10_state.md section 3 (R25, which the spec marks as its inference). -/
def Obligations.ValuesStayReachable : Prop :=
  (∀ s t : State, s.cfg.Valid → s.ValuesReachable → step s = .next t → t.ValuesReachable) ∧
  (∀ (c : Config) (ops : List BlockOp), c.Valid → ((State.powerOn c).performAll ops).ValuesReachable) ∧
  (∀ s : State, s.cfg.Valid → s.ValuesReachable → absW s.cfg.cellWidth s.acc = |s.acc|)

/-- Every width W of 41 or more gives the same behaviour. The step lemma: two machines of conforming widths that hold
reachable values and are equal but for W give the same reply under every block operation, and are then again equal but
for W and hold reachable values. So two machines that differ in W alone, after any sequence of block operations from
reset, differ in W alone. 00_scope.md section 4 and 10_state.md section 3; the width is the spec's decision D1, and that
the machine carries it is assumption log 1 and 3 (DESIGN CHOICE). -/
def Obligations.EveryWidthBehavesTheSame : Prop :=
  (∀ (s s' : State) (op : BlockOp), s.cfg.Valid → s.ValuesReachable → s.EqualButForWidth s' →
    41 ≤ s'.cfg.cellWidth →
    (s.perform op).1 = (s'.perform op).1 ∧ (s.perform op).2.EqualButForWidth (s'.perform op).2 ∧
    (s.perform op).2.ValuesReachable ∧ (s'.perform op).2.ValuesReachable) ∧
  (∀ (n w w' : Nat) (ops : List BlockOp), 41 ≤ w → 41 ≤ w' →
    (State.powerOn { memCells := n, cellWidth := w' }).performAll ops =
      { (State.powerOn { memCells := n, cellWidth := w }).performAll ops with
        cfg := { memCells := n, cellWidth := w' } })

/-- N is fixed when the machine is built: neither reset nor Load, nor any other block operation, changes it (R109); nor
does any change W, and the reset state has the default N. 70_reset_and_hazards.md section 1 and 00_scope.md section 4.
That N and W are parameters carried in the field `cfg` of the state, which no operation changes, is the model's own
choice (assumption log 1, DESIGN CHOICE). -/
def Obligations.ParametersNeverChange : Prop :=
  (∀ (s : State) (op : BlockOp), (s.perform op).2.cfg.memCells = s.cfg.memCells ∧ (s.perform op).2.cfg = s.cfg) ∧
  (∀ (s : State) (ops : List BlockOp), (s.performAll ops).cfg = s.cfg) ∧
  State.reset.cfg.memCells = 2048

/-- Memory is data: two canonical memories that read the same in every cell are equal, so writes to two different cells
commute, and writing to a cell the value it holds changes nothing. The model's choice of a representation (assumption log 2), for 10_state.md section 3. -/
def Obligations.CanonicalMemoriesAreEqualWhenTheyReadTheSame : Prop :=
  (∀ m m' : Memory, m.wf = true → m'.wf = true → (∀ a, m.read a = m'.read a) → m = m') ∧
  (∀ (m : Memory) (a b : Nat) (u v : Int), m.wf = true → a ≠ b →
    (m.write a u).write b v = (m.write b v).write a u) ∧
  (∀ (m : Memory) (a : Nat), m.wf = true → m.write a (m.read a) = m)

/-! ### Memory accesses -/

/-- R42, whole: no address has a side effect on read, every read is idempotent, and a write changes only the addressed
cell. Fetch: the step runs the fetched instruction, or ends with the cause the fetch found, on the very state it fetched
from, and what a fetch answers depends on nothing but memory, `pc` and N, so that fetching again answers the same.
LoadMem: its read leaves all memory, `halted`, `cause` and the parameters; it writes the value to `acc` and adds one to
`pc`, and a second LoadMem of the cell loads the same value; in or out of bounds it leaves memory. ReadCell and Snapshot leave
all state, so that a second one answers the same. -/
def Obligations.ReadsHaveNoSideEffect : Prop :=
  (∀ (s : State) (a : Int), (s.perform (.readCell a)).2 = s ∧
    ((s.perform (.readCell a)).2.perform (.readCell a)).1 = (s.perform (.readCell a)).1) ∧
  (∀ s : State, (s.perform .snapshot).2 = s ∧
    ((s.perform .snapshot).2.perform .snapshot).1 = (s.perform .snapshot).1) ∧
  (∀ (s : State) (i : Instr), s.halted = false → s.fetchInstr = .ok i → step s = exec i s) ∧
  (∀ (s : State) (c : Cause), s.halted = false → s.fetchInstr = .error c →
    step s = .next { s with halted := true, cause := c }) ∧
  (∀ s s' : State, s.mem = s'.mem → s.pc = s'.pc → s.cfg.memCells = s'.cfg.memCells →
    s.fetchInstr = s'.fetchInstr) ∧
  (∀ (opd : OperandField) (s t : State), exec (.loadMem opd) s = .next t → t.mem = s.mem ∧ t.cfg = s.cfg) ∧
  (∀ (opd : OperandField) (s : State), opd.toNat < s.cfg.memCells →
    ∃ t u, exec (.loadMem opd) s = .next t ∧ t = { s with acc := s.mem.read opd.toNat, pc := s.pc + 1 } ∧
      exec (.loadMem opd) t = .next u ∧ u.acc = t.acc) ∧
  (∀ (s t : State) (a : Nat) (v : Int), s.writeCell? a v = some t →
    t.mem.read a = v ∧ (∀ b, b ≠ a → t.mem.read b = s.mem.read b) ∧
    t.acc = s.acc ∧ t.pc = s.pc ∧ t.halted = s.halted ∧ t.cause = s.cause ∧ t.cfg = s.cfg)

/-- A read in the step after a write of the same cell sees the write, with no delay: LoadMem after StoreMem or Abs loads
the stored value, and the fetch of the cell fetches it; an Abs stores the value it has just put into the accumulator,
also into its own cell. 70_reset_and_hazards.md section 4 and 20_memory.md section 4; the obligation on implementations
is the spec's decision D13, the corner cases its inference. -/
def Obligations.NextStepSeesTheStore : Prop :=
  (∀ (opd : OperandField) (s t : State), opd.toNat < s.cfg.memCells → exec (.storeMem opd) s = .next t →
    exec (.loadMem opd) t = .next { t with acc := s.acc, pc := s.pc + 2 } ∧
    t.readCell opd.toNat = some s.acc) ∧
  (∀ (opd : OperandField) (s t : State), opd.toNat < s.cfg.memCells → exec (.abs opd) s = .next t →
    exec (.loadMem opd) t = .next { t with acc := absW s.cfg.cellWidth s.acc, pc := s.pc + 2 } ∧
    t.readCell opd.toNat = some (absW s.cfg.cellWidth s.acc)) ∧
  (∀ (opd : OperandField) (s t : State) (j : Instr), s.halted = false → s.pc + 1 < s.cfg.memCells →
    opd.toNat = s.pc + 1 → exec (.storeMem opd) s = .next t → s.acc = ((encode j).toNat : Int) →
    step t = exec j t) ∧
  (∀ (opd : OperandField) (s t : State) (j : Instr), s.halted = false → s.pc + 1 < s.cfg.memCells →
    opd.toNat = s.pc + 1 → exec (.abs opd) s = .next t →
    absW s.cfg.cellWidth s.acc = ((encode j).toNat : Int) → step t = exec j t)

/-- ReadCell answers `mem[a]` for an address in [0, N) and absent for every other, negative ones among them. 10_state.md
section 6; the negative case is the spec's decision D16. -/
def Obligations.ReadCellAnswersOrIsAbsent : Prop :=
  ∀ (s : State) (a : Int),
    (0 ≤ a → a < s.cfg.memCells → s.perform (.readCell a) = (.cell (some (s.mem.read a.toNat)), s)) ∧
    (a < 0 ∨ (s.cfg.memCells : Int) ≤ a → s.perform (.readCell a) = (.cell none, s))

/-- Snapshot answers `acc`, `pc`, `halted` and a copy of all N cells, and changes no state; what it answered does not
depend on `cause`. 10_state.md section 6; that `cause` is not in it is the source's, exposing it beside the snapshot the
spec's decision D6. -/
def Obligations.SnapshotCopiesTheState : Prop :=
  ∀ s : State, ∃ c : Snapshot, s.perform .snapshot = (.snapshot c, s) ∧
    c.acc = s.acc ∧ c.pc = s.pc ∧ c.halted = s.halted ∧ c.cells.length = s.cfg.memCells ∧
    (∀ a, a < s.cfg.memCells → c.cells[a]? = some (s.mem.read a)) ∧
    (∀ k : Cause, { s with cause := k }.snapshot = c)

/-! ### Reset and Load -/

/-- The values of power-on reset: `acc` 0, `pc` 0, running, `cause` NONE and every cell 0, for a machine of any size,
whatever state it is reset from; and a step then halts with END_SENTINEL. 10_state.md section 5 and
70_reset_and_hazards.md section 1; power-on reset is the spec's decision D8. -/
def Obligations.ResetClearsTheState : Prop :=
  (∀ s : State, s.perform .reset = (.resetDone, State.powerOn s.cfg)) ∧
  (∀ c : Config, (State.powerOn c).acc = 0 ∧ (State.powerOn c).pc = 0 ∧ (State.powerOn c).halted = false ∧
    (State.powerOn c).cause = .none ∧ (∀ a, a < c.memCells → (State.powerOn c).readCell a = some 0) ∧
    (1 ≤ c.memCells → step (State.powerOn c) =
      .next { State.powerOn c with halted := true, cause := .endSentinel })) ∧
  State.reset = State.powerOn { memCells := 2048, cellWidth := 64 } ∧
  (∀ s : State, s.load [] = (.ok, State.powerOn s.cfg))

/-- R108, whole: the entry point is cell 0 after reset and after every Load. -/
def Obligations.EntryPointIsCellZero : Prop :=
  (∀ s : State, (s.perform .reset).2.pc = 0) ∧
  (∀ (s t : State) (bytes : List Byte), s.load bytes = (.ok, t) → t.pc = 0) ∧
  (∀ c : Config, (State.powerOn c).pc = 0)

/-- R67, whole: a binary program is a concatenation of 5-byte records, with nothing else in it; a length that is no
multiple of 5 is a format error; record i is bytes [5i, 5i+4]. -/
def Obligations.BinaryProgramIsASequenceOfRecords : Prop :=
  (∀ bytes : List Byte, programWords bytes = none ↔ bytes.length % 5 ≠ 0) ∧
  (∀ (bytes : List Byte) (ws : List InsnWord), programWords bytes = some ws →
    ws.length = bytes.length / 5 ∧ bytes = ws.flatMap wordRecord ∧
    ∀ i, i < ws.length → ws.getD i 0#40 =
      recordWord (bytes.getD (5 * i) 0#8) (bytes.getD (5 * i + 1) 0#8) (bytes.getD (5 * i + 2) 0#8)
        (bytes.getD (5 * i + 3) 0#8) (bytes.getD (5 * i + 4) 0#8))

/-- A successful Load: the registers at their reset values, cell i the little-endian word of record i for the K records,
every other cell 0, whatever the records hold. 70_reset_and_hazards.md section 2 (R110's loop; that records are not
checked is the spec's decision D17). -/
def Obligations.LoadWritesTheRecordsFromCellZero : Prop :=
  ∀ (s : State) (bytes : List Byte), bytes.length % 5 = 0 → bytes.length / 5 ≤ s.cfg.memCells →
    ∃ t, s.perform (.load bytes) = (.loaded .ok, t) ∧ t.cfg = s.cfg ∧ t.acc = 0 ∧ t.pc = 0 ∧ t.halted = false ∧
      t.cause = .none ∧
      (∀ i, i < bytes.length / 5 → t.mem.read i =
        (((bytes.getD (5 * i) 0#8).toNat + (bytes.getD (5 * i + 1) 0#8).toNat * 2 ^ 8 +
          (bytes.getD (5 * i + 2) 0#8).toNat * 2 ^ 16 + (bytes.getD (5 * i + 3) 0#8).toNat * 2 ^ 24 +
          (bytes.getD (5 * i + 4) 0#8).toNat * 2 ^ 32 : Nat) : Int)) ∧
      (∀ i, bytes.length / 5 ≤ i → t.mem.read i = 0)

/-- R43, whole: after Load, cells [0, K) hold the program, record i in cell i; cells [K, N) hold 0, so a fetch there
meets the sentinel; the entry point is cell 0. No range is reserved: data may live anywhere in [0, N), the program's
own cells among them. -/
def Obligations.LoadLaysOutTheAddressMap : Prop :=
  (∀ (s t : State) (bytes : List Byte) (ws : List InsnWord), programWords bytes = some ws →
    s.load bytes = (.ok, t) →
    t.pc = 0 ∧ ws.length ≤ t.cfg.memCells ∧
    (∀ i, i < ws.length → t.mem.read i = ((ws.getD i 0#40).toNat : Int)) ∧
    (∀ u : State, u.cfg = t.cfg → u.mem = t.mem → ws.length ≤ u.pc → u.pc < u.cfg.memCells →
      u.mem.read u.pc = 0 ∧ u.fetchInstr = .error .endSentinel)) ∧
  (∀ (s : State) (a : Nat) (v : Int), a < s.cfg.memCells →
    ∃ t, s.writeCell? a v = some t ∧ t.readCell? a = some v)

/-- R111, whole: a byte length that is no multiple of 5 makes Load fail with MalformedProgram, and no state changes. -/
def Obligations.MalformedProgramLeavesTheState : Prop :=
  ∀ (s : State) (bytes : List Byte), bytes.length % 5 ≠ 0 →
    s.perform (.load bytes) = (.loaded .malformedProgram, s)

/-- A program of more than N records makes Load fail with ProgramTooLarge, and no state changes; MalformedProgram is
reported first. 70_reset_and_hazards.md section 2; the spec's decision D9. -/
def Obligations.ProgramTooLargeLeavesTheState : Prop :=
  ∀ (s : State) (bytes : List Byte), s.cfg.memCells < bytes.length / 5 →
    (bytes.length % 5 = 0 → s.perform (.load bytes) = (.loaded .programTooLarge, s)) ∧
    (bytes.length % 5 ≠ 0 → s.perform (.load bytes) = (.loaded .malformedProgram, s))

/-- R113, whole: a failed Load keeps the state from before it, `halted` included; a successful Load discards all earlier
state, so that two machines of the same build are equal after it. -/
def Obligations.LoadReplacesTheStateOrLeavesIt : Prop :=
  (∀ (s t : State) (bytes : List Byte) (r : LoadStatus), s.load bytes = (r, t) → r ≠ .ok → t = s) ∧
  (∀ (s t s' : State) (bytes : List Byte), s.load bytes = (.ok, t) → s'.cfg = s.cfg →
    s'.load bytes = (.ok, t))

/-- R116, whole: a program may rely on `acc = 0` and on 0 in every cell outside the program, which a LoadMem reads until
something writes the cell. A step leaves every cell it does not store to as it was; so, after Load and any number of
steps (and reads by the host) none of which stores to a cell outside the program, that cell still holds 0 and a LoadMem
of it loads 0. -/
def Obligations.ProgramMayRelyOnInitialValues : Prop :=
  (∀ (s t : State) (a : Nat), step s = .next t → ¬ s.StoresTo a → t.mem.read a = s.mem.read a) ∧
  (∀ (s t : State) (bytes : List Byte), s.load bytes = (.ok, t) →
    t.acc = 0 ∧ (∀ a, bytes.length / 5 ≤ a → a < t.cfg.memCells → t.readCell? a = some 0) ∧
    (∀ opd : OperandField, bytes.length / 5 ≤ opd.toNat → opd.toNat < t.cfg.memCells →
      exec (.loadMem opd) t = .next { t with acc := 0, pc := 1 }) ∧
    (∀ (ops : List BlockOp) (a : Nat), ops.all BlockOp.keepsProgram = true → bytes.length / 5 ≤ a →
      a < t.cfg.memCells →
      (∀ m, ops[m]? = some .step → ¬ (t.performAll (ops.take m)).StoresTo a) →
      (t.performAll ops).readCell? a = some 0 ∧
      ∀ opd : OperandField, opd.toNat = a → exec (.loadMem opd) (t.performAll ops) =
        .next { t.performAll ops with acc := 0, pc := (t.performAll ops).pc + 1 })) ∧
  (∀ (s t u v : State) (bytes : List Byte) (opd opd' : OperandField), s.load bytes = (.ok, t) →
    exec (.storeMem opd) t = .next u ∨ exec (.abs opd) t = .next u → bytes.length / 5 ≤ opd'.toNat →
    opd'.toNat < t.cfg.memCells → opd' ≠ opd → exec (.loadMem opd') u = .next v → v.acc = 0)

/-! ### The status registers -/

/-- The halt causes have the 3-bit codes 0 to 5, no two the same; 1 and 2 are the clean ends and 3, 4 and 5 the faults,
and a machine is without fault when its cause is none of these three.
10_state.md section 2 and 60_exceptions.md section 1; the codes are the spec's decision D6, the classification its
decision D18. -/
def Obligations.CauseCodesAndKinds : Prop :=
  Cause.none.code = 0#3 ∧ Cause.endOfMemory.code = 1#3 ∧ Cause.endSentinel.code = 2#3 ∧
  Cause.outOfBoundsAccess.code = 3#3 ∧ Cause.unknownOpcode.code = 4#3 ∧ Cause.invalidWord.code = 5#3 ∧
  (∀ c d : Cause, c.code = d.code → c = d) ∧
  (∀ c : Cause, c.isCleanEnd = true ↔ c.code = 1#3 ∨ c.code = 2#3) ∧
  (∀ c : Cause, c.isFault = true ↔ c.code = 3#3 ∨ c.code = 4#3 ∨ c.code = 5#3) ∧
  (∀ s : State, s.WithoutFault ↔ s.cause.code ≠ 3#3 ∧ s.cause.code ≠ 4#3 ∧ s.cause.code ≠ 5#3)

/-! ### The toolchain contract -/

/-- R63, whole: validation takes the instructions in order and stops at the first that fails; the operation must be one
of the four kinds, else UnknownOperation; the operand must be an integer, else TypeError-kind. -/
def Obligations.ValidationFailsFast : Prop :=
  (∀ (operation : TextOperation) (operand : TextOperand), (∀ k : OperationKind, operation ≠ .name (mnemonic k)) →
    validate (.ofFields operation operand) = .error .unknownOperation) ∧
  (∀ k : OperationKind, validate (.ofFields (.name (mnemonic k)) .notInteger) = .error .typeErrorKind) ∧
  (∀ (rs rest : List TextRecord) (is : List Instr) (r : TextRecord) (e : AsmError), validateAll rs = .ok is →
    validate r = .error e → validateAll (rs ++ r :: rest) = .error e ∧ assemble (rs ++ r :: rest) = .error e)

/-- R64, whole: LoadConst takes -65536 to 131071, else OperandOutOfRange; a negative operand is replaced by its 17-bit
fold; the encoded operand lies in [0, 131071]. -/
def Obligations.LoadConstOperandIsFolded : Prop :=
  ∀ v : Int,
    (-65536 ≤ v ∧ v ≤ 131071 →
      ∃ opd : OperandField, validate (textRecord .loadConst v) = .ok (.loadConst opd) ∧
        (opd.toNat : Int) = (if v < 0 then v + 131072 else v) ∧ opd.toNat ≤ 131071) ∧
    (v < -65536 ∨ 131071 < v → validate (textRecord .loadConst v) = .error .operandOutOfRange)

/-- R65, whole: LoadMem, StoreMem and Abs take 0 to 0x7FFFFFFF, else OperandOutOfRange (-1 among those refused); the
encoded operand lies in [0, 2^31 - 1]. -/
def Obligations.AddressOperandRange : Prop :=
  ∀ (k : OperationKind) (v : Int), k ≠ .loadConst →
    (0 ≤ v ∧ v ≤ 0x7FFFFFFF → ∃ opd : OperandField,
      validate (textRecord k v) = .ok (k.instr opd) ∧ (opd.toNat : Int) = v ∧ opd.toNat ≤ 2 ^ 31 - 1) ∧
    (v < 0 ∨ 0x7FFFFFFF < v → validate (textRecord k v) = .error .operandOutOfRange)

/-- R66, whole: where every record validates, assembly succeeds: it encodes each normalized instruction in input order
and concatenates; the length is 5 times the count; none is dropped or reordered; any error aborts with no partial
output. -/
def Obligations.AssemblyConcatenatesInOrder : Prop :=
  (∀ (rs : List TextRecord) (is : List Instr), List.Forall₂ (fun r i => validate r = .ok i) rs is →
    assemble rs = .ok (is.flatMap encodeBytes)) ∧
  (∀ (rs : List TextRecord) (bytes : List Byte), assemble rs = .ok bytes →
    ∃ is : List Instr, List.Forall₂ (fun r i => validate r = .ok i) rs is ∧
      bytes = is.flatMap encodeBytes ∧ bytes.length = 5 * rs.length ∧
      programWords bytes = some (is.map encode)) ∧
  (∀ rs : List TextRecord, (∃ r ∈ rs, ∃ e, validate r = .error e) → ∃ e, assemble rs = .error e)

/-- R68, whole: disassembly of one 5-byte record names the operation of its code and gives the operand through `sext_17`
only when the code is 58, else unchanged. -/
def Obligations.DisassemblySignExtendsOnlyLoadConst : Prop :=
  ∀ b0 b1 b2 b3 b4 : Byte, ∀ w : InsnWord, w = recordWord b0 b1 b2 b3 b4 →
    (w.toNat % 64 = 58 → disassemble [b0, b1, b2, b3, b4] =
      some (.known .loadConst, sext17 (BitVec.ofNat 34 (w.toNat / 64)))) ∧
    (w.toNat % 64 = 19 → disassemble [b0, b1, b2, b3, b4] =
      some (.known .loadMem, ((w.toNat / 64 : Nat) : Int))) ∧
    (w.toNat % 64 = 24 → disassemble [b0, b1, b2, b3, b4] =
      some (.known .storeMem, ((w.toNat / 64 : Nat) : Int))) ∧
    (w.toNat % 64 = 7 → disassemble [b0, b1, b2, b3, b4] =
      some (.known .abs, ((w.toNat / 64 : Nat) : Int))) ∧
    (w.toNat % 64 ≠ 58 → w.toNat % 64 ≠ 19 → w.toNat % 64 ≠ 24 → w.toNat % 64 ≠ 7 →
      disassemble [b0, b1, b2, b3, b4] = some (.unknownOperation, ((w.toNat / 64 : Nat) : Int)))

/-- A record survives assembly and disassembly exactly when it is not a LoadConst of an operand above 65535: such an
operand v is accepted, has the word of v - 131072, and executes as v - 131072. 30_encoding.md section 4 and
90_conflicts.md C2 (R70, which the spec marks as its inference). -/
def Obligations.SymbolicRoundTripAndItsException : Prop :=
  (∀ (k : OperationKind) (v : Int) (i : Instr), validate (textRecord k v) = .ok i →
    (disassemble (encodeBytes i) = some (.known k, v) ↔ (k = .loadConst → v ≤ 65535))) ∧
  (∀ v : Int, 65536 ≤ v → v ≤ 131071 →
    ∃ i, validate (textRecord .loadConst v) = .ok i ∧ validate (textRecord .loadConst (v - 131072)) = .ok i ∧
      disassemble (encodeBytes i) = some (.known .loadConst, v - 131072) ∧
      ∀ s : State, ∃ t, exec i s = .next t ∧ t.acc = v - 131072)

/-- The well-formed instructions are exactly those a toolchain emits. What "well-formed" means is the model's own choice
(assumption log 14, DESIGN CHOICE): the operand bits that 30_encoding.md section 3 says a toolchain leaves zero are
zero. That the decoder does not ask for it is the spec's decisions D3 and D4. -/
def Obligations.ToolchainEmitsTheWellFormedInstructions : Prop :=
  ∀ i : Instr, i.wellFormed = true ↔ ∃ r : TextRecord, validate r = .ok i

/-- From text to execution: an assembled program that fits loads, and the machine then fetches from cell k, for every k,
exactly the instruction the k-th record was validated to, and the sentinel from every cell after the last. 30_encoding.md
section 4 with 70_reset_and_hazards.md section 2 and 40_sequencer.md section 1; the model's own composition of them. -/
def Obligations.AssembledProgramIsFetchedBack : Prop :=
  ∀ (rs : List TextRecord) (bytes : List Byte) (s : State), assemble rs = .ok bytes →
    rs.length ≤ s.cfg.memCells →
    ∃ (is : List Instr) (t : State), validateAll rs = .ok is ∧ is.length = rs.length ∧
      s.load bytes = (.ok, t) ∧
      ∀ u : State, u.cfg = t.cfg → u.mem = t.mem →
        (∀ i, is[u.pc]? = some i → u.fetchInstr = .ok i) ∧
        (is.length ≤ u.pc → u.pc < u.cfg.memCells → u.fetchInstr = .error .endSentinel)

/-- A textual record is accepted only if it has exactly two fields, an operation that is one of the four fixed strings
and an integer operand, signed for LoadConst and non-negative for the others, in its range; and every such record is
accepted. A malformed record, one with a missing or an extra field among them, gives an error of the taxonomy and aborts
the assembly, wherever it stands. 30_encoding.md section 4 (R69, with R64 to R66). Which error a record with a missing or
an extra field gives is a free value, and that the taxonomy is the assembler's three validation errors of
60_exceptions.md section 3 is DEDUCED (assumption log 22). -/
def Obligations.MalformedRecordFailsValidation : Prop :=
  (∀ (r : TextRecord) (i : Instr), validate r = .ok i → ∃ (k : OperationKind) (v : Int),
    r.operation = some (.name (mnemonic k)) ∧ r.operand = some (.integer v) ∧ r.otherFields = [] ∧ i.kind = k ∧
    (k = .loadConst → -65536 ≤ v ∧ v ≤ 131071) ∧ (k ≠ .loadConst → 0 ≤ v ∧ v ≤ 0x7FFFFFFF)) ∧
  (∀ (k : OperationKind) (v : Int), (k = .loadConst → -65536 ≤ v ∧ v ≤ 131071) →
    (k ≠ .loadConst → 0 ≤ v ∧ v ≤ 0x7FFFFFFF) →
    ∃ i, validate { operation := some (.name (mnemonic k)), operand := some (.integer v), otherFields := [] } = .ok i ∧
      i.kind = k) ∧
  (∀ r : TextRecord, r.operation = none ∨ r.operand = none ∨ r.otherFields ≠ [] →
    ∃ e : AsmError, (e = .unknownOperation ∨ e = .typeErrorKind ∨ e = .operandOutOfRange) ∧ validate r = .error e ∧
      (∀ (rs rest : List TextRecord) (is : List Instr), validateAll rs = .ok is →
        assemble (rs ++ r :: rest) = .error e) ∧
      (∀ rs rest : List TextRecord, ∃ e', assemble (rs ++ r :: rest) = .error e'))
end

