-- ==== Sys2Proof/Laws/Decode.lean ====
section
/-! SUPPORT. The fields of a word, and records against words, in arithmetic. -/

namespace Sys2Proof

theorem decodeFields_opc_toNat (w : InsnWord) : (decodeFields w).1.toNat = w.toNat % 2 ^ 6 := by
  simp [decodeFields]

theorem decodeFields_opd_toNat (w : InsnWord) : (decodeFields w).2.toNat = w.toNat / 2 ^ 6 := by
  simp only [decodeFields, BitVec.extractLsb'_toNat, Nat.shiftRight_eq_div_pow]
  have := w.isLt
  omega

theorem encodeFields_toNat (c : Opcode) (v : OperandField) :
    (encodeFields c v).toNat = c.toNat + v.toNat * 2 ^ 6 := by
  have := c.isLt
  simp only [encodeFields, BitVec.toNat_append]
  rw [← Nat.shiftLeft_add_eq_or_of_lt this, Nat.shiftLeft_eq]
  omega

theorem recordWord_toNat (b0 b1 b2 b3 b4 : Byte) :
    (recordWord b0 b1 b2 b3 b4).toNat =
      b0.toNat + b1.toNat * 2 ^ 8 + b2.toNat * 2 ^ 16 + b3.toNat * 2 ^ 24 + b4.toNat * 2 ^ 32 := by
  have h0 := b0.isLt
  have h1 := b1.isLt
  have h2 := b2.isLt
  have h3 := b3.isLt
  have e1 : (b1 ++ b0).toNat = b1.toNat * 2 ^ 8 + b0.toNat := by
    rw [BitVec.toNat_append, ← Nat.shiftLeft_add_eq_or_of_lt h0, Nat.shiftLeft_eq]
  have e2 : (b2 ++ (b1 ++ b0)).toNat = b2.toNat * 2 ^ 16 + (b1 ++ b0).toNat := by
    rw [BitVec.toNat_append, ← Nat.shiftLeft_add_eq_or_of_lt (b1 ++ b0).isLt, Nat.shiftLeft_eq]
  have e3 : (b3 ++ (b2 ++ (b1 ++ b0))).toNat = b3.toNat * 2 ^ 24 + (b2 ++ (b1 ++ b0)).toNat := by
    rw [BitVec.toNat_append, ← Nat.shiftLeft_add_eq_or_of_lt (b2 ++ (b1 ++ b0)).isLt, Nat.shiftLeft_eq]
  have e4 : (recordWord b0 b1 b2 b3 b4).toNat = b4.toNat * 2 ^ 32 + (b3 ++ (b2 ++ (b1 ++ b0))).toNat := by
    rw [recordWord, BitVec.toNat_append, ← Nat.shiftLeft_add_eq_or_of_lt (b3 ++ (b2 ++ (b1 ++ b0))).isLt,
      Nat.shiftLeft_eq]
  omega

theorem wordByte_toNat (w : InsnWord) (k : Nat) : (wordByte w k).toNat = w.toNat / 2 ^ (8 * k) % 256 := by
  simp [wordByte, Nat.shiftRight_eq_div_pow]

/-- The word of the record of a word is that word. -/
@[simp] theorem recordWord_wordByte (w : InsnWord) :
    recordWord (wordByte w 0) (wordByte w 1) (wordByte w 2) (wordByte w 3) (wordByte w 4) = w := by
  apply BitVec.eq_of_toNat_eq
  have := w.isLt
  simp only [recordWord_toNat, wordByte_toNat]
  omega

@[simp] theorem wordRecord_length (w : InsnWord) : (wordRecord w).length = 5 := rfl

/-- A record at the head of a byte sequence is decoded as its word. -/
theorem decodeBytes_wordRecord (w : InsnWord) (rest : List Byte) :
    decodeBytes (wordRecord w ++ rest) =
      match decode w with
      | .ok i => .ok (i, rest)
      | .error e => .error e := by
  rcases hd : decode w with e | i <;> simp [wordRecord, decodeBytes, hd]

end Sys2Proof
end

