-- ==== Sys2Proof/Laws/Memory.lean ====
section
/-! SUPPORT. The laws of memory: a read after a write, the frame of a write, and that every operation keeps the
canonical form. -/

namespace Sys2Proof.Machine

/-! ### Lists of cells -/

theorem readCells_insertCell_same (l : List (Nat × Int)) (a : Nat) (v : Int) :
    readCells (insertCell l a v) a = v := by
  induction l with
  | nil => simp [insertCell, readCells]
  | cons p rest ih =>
    obtain ⟨b, u⟩ := p
    simp only [insertCell]
    split
    · simp [readCells]
    · split
      · simp [readCells]
      · simp [readCells, *]

theorem readCells_insertCell_other (l : List (Nat × Int)) (a b : Nat) (v : Int) (h : b ≠ a) :
    readCells (insertCell l a v) b = readCells l b := by
  induction l with
  | nil => simp [insertCell, readCells, h]
  | cons p rest ih =>
    obtain ⟨c, u⟩ := p
    simp only [insertCell]
    split
    · simp [readCells, h]
    · split
      · subst_vars; simp [readCells, h]
      · simp [readCells, ih]

theorem readCells_filter_same (l : List (Nat × Int)) (a : Nat) :
    readCells (l.filter (fun p => decide (p.1 ≠ a))) a = Config.blankCell := by
  induction l with
  | nil => rfl
  | cons p rest ih =>
    obtain ⟨b, u⟩ := p
    by_cases h : b = a
    · simpa [List.filter_cons, h] using ih
    · simpa [List.filter_cons, h, readCells, Ne.symm h] using ih

theorem readCells_filter_other (l : List (Nat × Int)) (a b : Nat) (h : b ≠ a) :
    readCells (l.filter (fun p => decide (p.1 ≠ a))) b = readCells l b := by
  induction l with
  | nil => rfl
  | cons p rest ih =>
    obtain ⟨c, u⟩ := p
    by_cases hc : c = a
    · subst hc; simpa [List.filter_cons, readCells, h] using ih
    · by_cases hb : b = c
      · simp [hc, readCells, hb]
      · simpa [List.filter_cons, hc, readCells, hb] using ih

theorem mem_insertCell {l : List (Nat × Int)} {a : Nat} {v : Int} {p : Nat × Int} (h : p ∈ insertCell l a v) :
    p = (a, v) ∨ p ∈ l := by
  induction l with
  | nil => simpa [insertCell] using h
  | cons q rest ih =>
    obtain ⟨b, u⟩ := q
    simp only [insertCell] at h
    split at h
    · simpa using h
    · split at h
      · rcases List.mem_cons.mp h with h | h
        · exact .inl h
        · exact .inr (List.mem_cons_of_mem _ h)
      · rcases List.mem_cons.mp h with h | h
        · exact .inr (h ▸ List.mem_cons_self)
        · exact (ih h).imp id (List.mem_cons_of_mem _)

theorem insertCell_rising {l : List (Nat × Int)} (a : Nat) (v : Int)
    (h : l.Pairwise (fun p q => p.1 < q.1)) : (insertCell l a v).Pairwise (fun p q => p.1 < q.1) := by
  induction l with
  | nil => simp [insertCell]
  | cons q rest ih =>
    obtain ⟨b, u⟩ := q
    obtain ⟨hb, hr⟩ := List.pairwise_cons.mp h
    simp only [insertCell]
    split
    · rename_i hab
      refine List.pairwise_cons.mpr ⟨?_, h⟩
      intro p hp
      rcases List.mem_cons.mp hp with rfl | hp
      · exact hab
      · exact lt_trans hab (hb p hp)
    · split
      · rename_i hab; subst hab
        exact List.pairwise_cons.mpr ⟨fun p hp => hb p hp, hr⟩
      · refine List.pairwise_cons.mpr ⟨?_, ih hr⟩
        intro p hp
        rcases mem_insertCell hp with rfl | hp
        · dsimp only; omega
        · exact hb p hp

/-! ### Memory -/

@[simp] theorem Memory.read_blank (a : Nat) : Memory.blank.read a = 0 := rfl

@[simp] theorem Memory.read_write_same (m : Memory) (a : Nat) (v : Int) : (m.write a v).read a = v := by
  unfold Memory.write Memory.read
  split
  · rename_i h
    rw [h]
    exact readCells_filter_same m.cells a
  · exact readCells_insertCell_same m.cells a v

theorem Memory.read_write_other (m : Memory) (a b : Nat) (v : Int) (h : b ≠ a) :
    (m.write a v).read b = m.read b := by
  unfold Memory.write Memory.read
  split
  · exact readCells_filter_other m.cells a b h
  · exact readCells_insertCell_other m.cells a b v h

theorem Memory.read_write (m : Memory) (a b : Nat) (v : Int) :
    (m.write a v).read b = if b = a then v else m.read b := by
  split
  · rename_i h; subst h; exact m.read_write_same b v
  · rename_i h; exact m.read_write_other a b v h

theorem Memory.wf_iff (m : Memory) :
    m.wf = true ↔ m.cells.Pairwise (fun p q => p.1 < q.1) ∧ ∀ p ∈ m.cells, p.2 ≠ Config.blankCell := by
  simp [Memory.wf]

theorem Memory.blank_wf : Memory.blank.wf = true := rfl

/-- What a write lists: the written cell, or what was listed before. -/
theorem Memory.mem_cells_write {m : Memory} {a : Nat} {v : Int} {p : Nat × Int} (h : p ∈ (m.write a v).cells) :
    (p = (a, v) ∧ v ≠ Config.blankCell) ∨ p ∈ m.cells := by
  unfold Memory.write at h
  split at h
  · exact .inr (List.mem_of_mem_filter h)
  · rename_i hv
    exact (mem_insertCell h).imp (fun e => ⟨e, hv⟩) id

theorem Memory.write_wf {m : Memory} (a : Nat) (v : Int) (h : m.wf = true) : (m.write a v).wf = true := by
  obtain ⟨hr, hn⟩ := m.wf_iff.mp h
  refine (Memory.wf_iff _).mpr ⟨?_, ?_⟩
  · unfold Memory.write
    split
    · exact hr.filter _
    · exact insertCell_rising a v hr
  · intro p hp
    rcases Memory.mem_cells_write hp with ⟨rfl, hv⟩ | hp
    · exact hv
    · exact hn p hp

theorem Memory.writeWords_wf {m : Memory} (ws : List InsnWord) (a : Nat) (h : m.wf = true) :
    (m.writeWords a ws).wf = true := by
  induction ws generalizing m a with
  | nil => exact h
  | cons w ws ih => exact ih (a + 1) (Memory.write_wf a w.toNat h)

/-- What a run of words written from cell `a` on leaves in cell `b`. -/
theorem Memory.read_writeWords (m : Memory) (ws : List InsnWord) (a b : Nat) :
    (m.writeWords a ws).read b =
      if b < a then m.read b else if h : b - a < ws.length then ((ws[b - a]).toNat : Int) else m.read b := by
  induction ws generalizing m a with
  | nil => simp [Memory.writeWords]
  | cons w ws ih =>
    rw [Memory.writeWords, ih, Memory.read_write]
    rcases Nat.lt_trichotomy b a with h | h | h
    · rw [if_pos (Nat.lt_succ_of_lt h), if_neg (Nat.ne_of_lt h), if_pos h]
    · subst h; simp
    · obtain ⟨k, rfl⟩ : ∃ k, b = a + 1 + k := ⟨b - (a + 1), by omega⟩
      have e : a + 1 + k - a = k + 1 := by omega
      have e' : a + 1 + k - (a + 1) = k := by omega
      simp [e, e', show ¬ a + 1 + k ≤ a by omega, show ¬ a + 1 + k < a by omega, show ¬ a + 1 + k = a by omega]

theorem Memory.mem_cells_writeWords {m : Memory} {ws : List InsnWord} {a : Nat} {p : Nat × Int}
    (h : p ∈ (m.writeWords a ws).cells) : p.1 < a + ws.length ∨ p ∈ m.cells := by
  induction ws generalizing m a with
  | nil => exact .inr h
  | cons w ws ih =>
    rcases ih h with h | h
    · left; simp only [List.length_cons]; omega
    · rcases Memory.mem_cells_write h with ⟨rfl, -⟩ | h
      · left; simp
      · exact .inr h

/-- A cell below every listed one is unlisted. -/
theorem readCells_eq_blank {l : List (Nat × Int)} {a : Nat} (h : ∀ p ∈ l, a < p.1) :
    readCells l a = Config.blankCell := by
  induction l with
  | nil => rfl
  | cons p rest ih =>
    obtain ⟨b, u⟩ := p
    have hab : a < b := h (b, u) List.mem_cons_self
    rw [readCells, if_neg (Nat.ne_of_lt hab)]
    exact ih fun p hp => h p (List.mem_cons_of_mem _ hp)

end Sys2Proof.Machine
end

