-- ==== Sys2Proof/Laws/State.lean ====
section
/-! SUPPORT. One lemma per field per update of State, so that no later proof unfolds a record update. -/

namespace Sys2Proof.Machine

@[simp] theorem State.setAcc_cfg (s : State) (v : Int) : (s.setAcc v).cfg = s.cfg := rfl
@[simp] theorem State.setAcc_acc (s : State) (v : Int) : (s.setAcc v).acc = v := rfl
@[simp] theorem State.setAcc_pc (s : State) (v : Int) : (s.setAcc v).pc = s.pc := rfl
@[simp] theorem State.setAcc_halted (s : State) (v : Int) : (s.setAcc v).halted = s.halted := rfl
@[simp] theorem State.setAcc_cause (s : State) (v : Int) : (s.setAcc v).cause = s.cause := rfl
@[simp] theorem State.setAcc_mem (s : State) (v : Int) : (s.setAcc v).mem = s.mem := rfl

@[simp] theorem State.advance_cfg (s : State) : s.advance.cfg = s.cfg := rfl
@[simp] theorem State.advance_acc (s : State) : s.advance.acc = s.acc := rfl
@[simp] theorem State.advance_pc (s : State) : s.advance.pc = s.pc + 1 := rfl
@[simp] theorem State.advance_halted (s : State) : s.advance.halted = s.halted := rfl
@[simp] theorem State.advance_cause (s : State) : s.advance.cause = s.cause := rfl
@[simp] theorem State.advance_mem (s : State) : s.advance.mem = s.mem := rfl

@[simp] theorem State.raise_cfg (s : State) (c : Cause) : (s.raise c).cfg = s.cfg := rfl
@[simp] theorem State.raise_acc (s : State) (c : Cause) : (s.raise c).acc = s.acc := rfl
@[simp] theorem State.raise_pc (s : State) (c : Cause) : (s.raise c).pc = s.pc := rfl
@[simp] theorem State.raise_halted (s : State) (c : Cause) : (s.raise c).halted = true := rfl
@[simp] theorem State.raise_cause (s : State) (c : Cause) : (s.raise c).cause = c := rfl
@[simp] theorem State.raise_mem (s : State) (c : Cause) : (s.raise c).mem = s.mem := rfl

@[simp] theorem State.powerOn_cfg (c : Config) : (State.powerOn c).cfg = c := rfl
@[simp] theorem State.powerOn_acc (c : Config) : (State.powerOn c).acc = 0 := rfl
@[simp] theorem State.powerOn_pc (c : Config) : (State.powerOn c).pc = 0 := rfl
@[simp] theorem State.powerOn_halted (c : Config) : (State.powerOn c).halted = false := rfl
@[simp] theorem State.powerOn_cause (c : Config) : (State.powerOn c).cause = Cause.none := rfl
@[simp] theorem State.powerOn_mem (c : Config) : (State.powerOn c).mem = Memory.blank := rfl

@[simp] theorem State.placeWord_cfg (s : State) (w : InsnWord) : (s.placeWord w).cfg = s.cfg := rfl
@[simp] theorem State.placeWord_acc (s : State) (w : InsnWord) : (s.placeWord w).acc = s.acc := rfl
@[simp] theorem State.placeWord_pc (s : State) (w : InsnWord) :
    (s.placeWord w).pc = if s.pc < s.cfg.memCells then s.pc else 0 := rfl
@[simp] theorem State.placeWord_halted (s : State) (w : InsnWord) : (s.placeWord w).halted = false := rfl
@[simp] theorem State.placeWord_cause (s : State) (w : InsnWord) : (s.placeWord w).cause = Cause.none := rfl
@[simp] theorem State.placeWord_mem (s : State) (w : InsnWord) :
    (s.placeWord w).mem = s.mem.write (if s.pc < s.cfg.memCells then s.pc else 0) w.toNat := rfl

end Sys2Proof.Machine
end

