-- ==== Sys2Proof/Laws/Ops.lean ====
section
/-! SUPPORT. One lemma per shared operation that says once everything it can do. -/

namespace Sys2Proof.Machine

/-! ### Checked access -/

theorem State.readCell?_eq_some {s : State} {a : Nat} {v : Int} :
    s.readCell? a = some v ↔ a < s.cfg.memCells ∧ s.mem.read a = v := by
  unfold State.readCell?
  split <;> simp [*]

theorem State.readCell?_eq_none {s : State} {a : Nat} : s.readCell? a = none ↔ s.cfg.memCells ≤ a := by
  unfold State.readCell?
  split <;> simp <;> omega

theorem State.writeCell?_eq_some {s t : State} {a : Nat} {v : Int} :
    s.writeCell? a v = some t ↔ a < s.cfg.memCells ∧ t = { s with mem := s.mem.write a v } := by
  unfold State.writeCell?
  split <;> simp [*, eq_comm]

theorem State.writeCell?_eq_none {s : State} {a : Nat} {v : Int} :
    s.writeCell? a v = none ↔ s.cfg.memCells ≤ a := by
  unfold State.writeCell?
  split <;> simp <;> omega

/-! ### Operands and arithmetic -/

theorem sext17_of_bit {v : OperandField} (h : v.getLsbD 16 = true) : sext17 v = (v.toNat : Int) - 2 ^ 17 := by
  unfold sext17
  rw [if_pos h]

theorem sext17_of_not_bit {v : OperandField} (h : v.getLsbD 16 = false) : sext17 v = (v.toNat : Int) := by
  unfold sext17
  rw [h]
  rfl

/-- Bit 16 of an operand field, as arithmetic. -/
theorem operandBit16 (v : OperandField) : v.getLsbD 16 = decide (2 ^ 16 ≤ v.toNat % 2 ^ 17) := by
  rw [BitVec.getLsbD, Nat.testBit_eq_decide_div_mod_eq]
  simp only [decide_eq_decide]
  omega

/-- A W-bit integer is held exactly. -/
theorem narrow_of_bounds {w : Nat} {v : Int} (hw : 0 < w) (h1 : -2 ^ (w - 1) ≤ v) (h2 : v < 2 ^ (w - 1)) :
    narrow w v = v := by
  obtain ⟨k, rfl⟩ : ∃ k, w = k + 1 := ⟨w - 1, by omega⟩
  simp only [Nat.add_sub_cancel] at h1 h2
  unfold narrow
  have e : ((2 ^ (k + 1) : Nat) : Int) = 2 * 2 ^ k := by push_cast; ring
  apply Int.bmod_eq_of_le
  · rw [e]; omega
  · rw [e]; omega

/-- What narrowing answers is a W-bit integer. -/
theorem narrow_bounds {w : Nat} (v : Int) (hw : 0 < w) :
    -2 ^ (w - 1) ≤ narrow w v ∧ narrow w v < 2 ^ (w - 1) := by
  obtain ⟨k, rfl⟩ : ∃ k, w = k + 1 := ⟨w - 1, by omega⟩
  unfold narrow
  simp only [Nat.add_sub_cancel]
  have hp : (0 : Nat) < 2 ^ (k + 1) := Nat.two_pow_pos _
  have e : ((2 ^ (k + 1) : Nat) : Int) = 2 * 2 ^ k := by push_cast; ring
  have h1 := Int.le_bmod (x := v) hp
  have h2 := Int.bmod_lt (x := v) hp
  rw [e] at h1 h2
  omega

/-! ### The meanings: everything each can do -/

theorem execLoadConst_cases {opd : OperandField} {s t : State} (h : execLoadConst opd s = .next t) :
    t = (s.setAcc (sext17 opd)).advance := by
  simpa [execLoadConst, eq_comm] using h

theorem execLoadMem_cases {opd : OperandField} {s t : State} (h : execLoadMem opd s = .next t) :
    (s.cfg.memCells ≤ cellAddress opd ∧ t = s.raise .outOfBoundsAccess) ∨
    (cellAddress opd < s.cfg.memCells ∧ t = (s.setAcc (s.mem.read (cellAddress opd))).advance) := by
  unfold execLoadMem at h
  split at h
  · rename_i hn
    exact .inl ⟨State.readCell?_eq_none.mp hn, by simpa [eq_comm] using h⟩
  · rename_i v hv
    obtain ⟨hb, rfl⟩ := State.readCell?_eq_some.mp hv
    exact .inr ⟨hb, by simpa [eq_comm] using h⟩

theorem execStoreMem_cases {opd : OperandField} {s t : State} (h : execStoreMem opd s = .next t) :
    (s.cfg.memCells ≤ cellAddress opd ∧ t = s.raise .outOfBoundsAccess) ∨
    (cellAddress opd < s.cfg.memCells ∧
      t = State.advance { s with mem := s.mem.write (cellAddress opd) s.acc }) := by
  unfold execStoreMem at h
  split at h
  · rename_i hn
    exact .inl ⟨State.writeCell?_eq_none.mp hn, by simpa [eq_comm] using h⟩
  · rename_i u hu
    obtain ⟨hb, rfl⟩ := State.writeCell?_eq_some.mp hu
    exact .inr ⟨hb, by simpa [eq_comm] using h⟩

theorem execAbs_cases {opd : OperandField} {s t : State} (h : execAbs opd s = .next t) :
    (s.cfg.memCells ≤ cellAddress opd ∧
      t = (s.setAcc (absW s.cfg.cellWidth s.acc)).raise .outOfBoundsAccess) ∨
    (cellAddress opd < s.cfg.memCells ∧
      t = State.advance { s.setAcc (absW s.cfg.cellWidth s.acc) with
        mem := s.mem.write (cellAddress opd) (absW s.cfg.cellWidth s.acc) }) := by
  unfold execAbs at h
  dsimp only at h
  split at h
  · rename_i hn
    exact .inl ⟨by simpa using State.writeCell?_eq_none.mp hn, by simpa [eq_comm] using h⟩
  · rename_i u hu
    obtain ⟨hb, rfl⟩ := State.writeCell?_eq_some.mp hu
    exact .inr ⟨hb, by simpa [eq_comm] using h⟩

/-! ### Fetch -/

theorem wordOfCell_eq_some {v : Int} {w : InsnWord} :
    wordOfCell v = some w ↔ v = (w.toNat : Int) := by
  unfold wordOfCell
  have hw := w.isLt
  constructor
  · intro h
    split at h
    · rename_i hv
      have := congrArg BitVec.toNat (Option.some.inj h)
      rw [BitVec.toNat_ofNat, Nat.mod_eq_of_lt (by omega)] at this
      omega
    · cases h
  · rintro rfl
    rw [if_pos ⟨by omega, by omega⟩]
    simp

theorem wordOfCell_eq_none {v : Int} : wordOfCell v = none ↔ v < 0 ∨ 2 ^ 40 ≤ v := by
  unfold wordOfCell
  split <;> simp <;> omega

/-- Everything a fetch can answer, in the order of the checks of R98. -/
theorem State.fetchInstr_cases (s : State) :
    (s.cfg.memCells ≤ s.pc ∧ s.fetchInstr = .error .endOfMemory) ∨
    (s.pc < s.cfg.memCells ∧ s.mem.read s.pc = 0 ∧ s.fetchInstr = .error .endSentinel) ∨
    (s.pc < s.cfg.memCells ∧ (s.mem.read s.pc < 0 ∨ 2 ^ 40 ≤ s.mem.read s.pc) ∧
      s.fetchInstr = .error .invalidWord) ∨
    (∃ w : InsnWord, s.pc < s.cfg.memCells ∧ s.mem.read s.pc = (w.toNat : Int) ∧ w ≠ 0 ∧
      operationOfCode (decodeFields w).1 = none ∧ s.fetchInstr = .error .unknownOpcode) ∨
    (∃ (w : InsnWord) (i : Instr), s.pc < s.cfg.memCells ∧ s.mem.read s.pc = (w.toNat : Int) ∧ w ≠ 0 ∧
      decode w = .ok i ∧ s.fetchInstr = .ok i) := by
  unfold State.fetchInstr
  rcases hr : s.readCell? s.pc with _ | v
  · exact .inl ⟨State.readCell?_eq_none.mp hr, rfl⟩
  obtain ⟨hpc, rfl⟩ := State.readCell?_eq_some.mp hr
  by_cases h0 : s.mem.read s.pc = 0
  · exact .inr (.inl ⟨hpc, h0, by simp [h0]⟩)
  rcases hw : wordOfCell (s.mem.read s.pc) with _ | w
  · exact .inr (.inr (.inl ⟨hpc, wordOfCell_eq_none.mp hw, by simp [h0, hw]⟩))
  have hv := wordOfCell_eq_some.mp hw
  have hw0 : w ≠ 0 := by rintro rfl; exact h0 (by simpa using hv)
  rcases hk : operationOfCode (decodeFields w).1 with _ | k
  · exact .inr (.inr (.inr (.inl ⟨w, hpc, hv, hw0, hk, by simp [h0, hw, decode, hk]⟩)))
  · exact .inr (.inr (.inr (.inr ⟨w, k.instr (decodeFields w).2, hpc, hv, hw0, by simp [decode, hk],
      by simp [h0, hw, decode, hk]⟩)))

/-! ### The step -/

theorem step_of_halted {s : State} (h : s.halted = true) : step s = .next s := by
  simp [step, h]

theorem step_of_error {s : State} {c : Cause} (h : s.halted = false) (hf : s.fetchInstr = .error c) :
    step s = .next (s.raise c) := by
  simp [step, h, hf]

theorem step_of_ok {s : State} {i : Instr} (h : s.halted = false) (hf : s.fetchInstr = .ok i) :
    step s = exec i s := by
  simp [step, h, hf]

end Sys2Proof.Machine
end

