-- ==== Sys2Proof/Laws/PerInstr.lean ====
section
/-! SUPPORT. The statements made for every instruction, one lemma per constructor of Instr. -/

namespace Sys2Proof.Laws

/-- The two fields of an instruction's word are its operation code and its operand field (R51, R53). -/
def EncodedFields.Statement (i : Instr) : Prop :=
  (encode i).toNat % 2 ^ 6 = (operationCode i.kind).toNat ∧ (encode i).toNat / 2 ^ 6 = i.operand.toNat

theorem EncodedFields.of_kind (i : Instr) : EncodedFields.Statement i := by
  have := (operationCode i.kind).isLt
  unfold EncodedFields.Statement encode
  rw [encodeFields_toNat]
  omega

theorem EncodedFields.loadConst (opd : OperandField) : EncodedFields.Statement (.loadConst opd) :=
  EncodedFields.of_kind _

theorem EncodedFields.loadMem (opd : OperandField) : EncodedFields.Statement (.loadMem opd) :=
  EncodedFields.of_kind _

theorem EncodedFields.storeMem (opd : OperandField) : EncodedFields.Statement (.storeMem opd) :=
  EncodedFields.of_kind _

theorem EncodedFields.abs (opd : OperandField) : EncodedFields.Statement (.abs opd) :=
  EncodedFields.of_kind _

end Sys2Proof.Laws
end

