-- ==== Sys2Proof/Laws/Step.lean ====
section
/-! SUPPORT. What one step, and one block operation, can do: the inversion lemmas later proofs start from. -/

namespace Sys2Proof.Machine

/-- Every meaning answers a next state: the exceptional conditions are next states too. -/
theorem exec_next (i : Instr) (s : State) : ∃ t, exec i s = .next t := by
  cases i with
  | loadConst opd => exact ⟨_, rfl⟩
  | loadMem opd =>
    simp only [exec, execLoadMem]
    split <;> exact ⟨_, rfl⟩
  | storeMem opd =>
    simp only [exec, execStoreMem]
    split <;> exact ⟨_, rfl⟩
  | abs opd =>
    simp only [exec, execAbs]
    split <;> exact ⟨_, rfl⟩

theorem step_next (s : State) : ∃ t, step s = .next t := by
  rcases hh : s.halted with _ | _
  · rcases hf : s.fetchInstr with c | i
    · exact ⟨_, step_of_error hh hf⟩
    · rw [step_of_ok hh hf]; exact exec_next i s
  · exact ⟨s, step_of_halted hh⟩

/-- A step changes nothing of a halted machine, ends the run with the cause the fetch found, or executes. -/
theorem step_cases {s t : State} (h : step s = .next t) :
    (s.halted = true ∧ t = s) ∨
    (s.halted = false ∧ ∃ c, s.fetchInstr = .error c ∧ t = s.raise c) ∨
    (s.halted = false ∧ ∃ i, s.fetchInstr = .ok i ∧ exec i s = .next t) := by
  rcases hh : s.halted with _ | _
  · rcases hf : s.fetchInstr with c | i
    · rw [step_of_error hh hf] at h
      exact .inr (.inl ⟨rfl, c, rfl, by simpa [eq_comm] using h⟩)
    · rw [step_of_ok hh hf] at h
      exact .inr (.inr ⟨rfl, i, rfl, h⟩)
  · rw [step_of_halted hh] at h
    exact .inl ⟨rfl, by simpa [eq_comm] using h⟩

/-- One step of any machine behind the host's interface, then the rest of its run. -/
theorem run_succ_of_next (M : Host.Core) (n : Nat) (s t : M.State) (h : M.step s = .next t) :
    M.run (n + 1) s = M.run n t := by
  simp only [Host.Core.run, h]

/-- One step of the machine, then the rest of its run. -/
theorem core_run_succ {s t : State} (n : Nat) (h : step s = .next t) :
    Sys2Proof.core.run (n + 1) s = Sys2Proof.core.run n t :=
  run_succ_of_next Sys2Proof.core n s t h

/-- The step as a block operation: its report and the state it leaves. -/
theorem State.perform_step {s t : State} (h : step s = .next t) : s.perform .step = (.stepped t.report, t) := by
  simp [State.perform, h]

@[simp] theorem State.performAll_nil (s : State) : s.performAll [] = s := rfl

@[simp] theorem State.performAll_cons (s : State) (op : BlockOp) (ops : List BlockOp) :
    s.performAll (op :: ops) = (s.perform op).2.performAll ops := rfl

/-! ### Load -/

/-- A program has words if and only if its length is a multiple of 5, and then one word for each record. -/
theorem programWords_cases (bytes : List Byte) :
    (bytes.length % 5 ≠ 0 ∧ programWords bytes = none) ∨
    (∃ ws, programWords bytes = some ws ∧ bytes.length = 5 * ws.length) := by
  fun_induction programWords bytes with
  | case1 => exact .inr ⟨[], rfl, rfl⟩
  | case2 b0 b1 b2 b3 b4 rest ws hw ih =>
    rcases ih with ⟨-, h⟩ | ⟨ws', h, hl⟩
    · rw [hw] at h; cases h
    · rw [hw] at h; cases h
      refine .inr ⟨_, rfl, ?_⟩
      simp only [List.length_cons]
      omega
  | case3 b0 b1 b2 b3 b4 rest hw ih =>
    rcases ih with ⟨hl, -⟩ | ⟨ws', h, hl⟩
    · left
      refine ⟨?_, rfl⟩
      simp only [List.length_cons]
      omega
    · rw [hw] at h; cases h
  | case4 bytes h1 h2 =>
    left
    refine ⟨?_, rfl⟩
    match bytes, h1, h2 with
    | [], h1, _ => exact absurd rfl h1
    | [_], _, _ => simp
    | [_, _], _, _ => simp
    | [_, _, _], _, _ => simp
    | [_, _, _, _], _, _ => simp
    | b0 :: b1 :: b2 :: b3 :: b4 :: rest, _, h2 => exact absurd rfl (h2 b0 b1 b2 b3 b4 rest)

/-- What Load can do. -/
theorem State.load_cases (s : State) (bytes : List Byte) :
    (bytes.length % 5 ≠ 0 ∧ s.load bytes = (.malformedProgram, s)) ∨
    (∃ ws, programWords bytes = some ws ∧ bytes.length = 5 * ws.length ∧ s.cfg.memCells < ws.length ∧
      s.load bytes = (.programTooLarge, s)) ∨
    (∃ ws, programWords bytes = some ws ∧ bytes.length = 5 * ws.length ∧ ws.length ≤ s.cfg.memCells ∧
      s.load bytes = (.ok, s.loaded ws)) := by
  rcases programWords_cases bytes with ⟨hl, hw⟩ | ⟨ws, hw, hl⟩
  · exact .inl ⟨hl, by simp [State.load, hw]⟩
  · by_cases hn : s.cfg.memCells < ws.length
    · exact .inr (.inl ⟨ws, hw, hl, hn, by simp [State.load, hw, hn]⟩)
    · exact .inr (.inr ⟨ws, hw, hl, by omega, by simp [State.load, hw, hn]⟩)

/-- The records of encoded words are those words. -/
theorem programWords_flatMap (ws : List InsnWord) : programWords (ws.flatMap wordRecord) = some ws := by
  induction ws with
  | nil => rfl
  | cons w ws ih => simp [wordRecord, programWords] at ih ⊢; simp [ih]

end Sys2Proof.Machine
end

