-- ==== Sys2Proof/Laws/Toolchain.lean ====
section
/-! SUPPORT. What the shared operations of the toolchain contract do. -/

namespace Sys2Proof.Machine

@[simp] theorem operationNamed_mnemonic (k : OperationKind) : operationNamed (mnemonic k) = some k := by
  cases k <;> decide

@[simp] theorem operationOfCode_operationCode (k : OperationKind) : operationOfCode (operationCode k) = some k := by
  cases k <;> rfl

@[simp] theorem nameOfCode_operationCode (k : OperationKind) : nameOfCode (operationCode k) = .known k := by
  simp [nameOfCode]

@[simp] theorem fields?_ofFields (operation : TextOperation) (operand : TextOperand) :
    (TextRecord.ofFields operation operand).fields? = some (operation, operand) := rfl

/-- A record has exactly two fields, or lacks one or has others. -/
theorem fields?_eq_none {r : TextRecord} :
    r.fields? = none ↔ r.operation = none ∨ r.operand = none ∨ r.otherFields ≠ [] := by
  obtain ⟨_ | _, _ | _, _ | _⟩ := r <;> simp [TextRecord.fields?]

theorem fields?_eq_some {r : TextRecord} {operation : TextOperation} {operand : TextOperand} :
    r.fields? = some (operation, operand) ↔ r = .ofFields operation operand := by
  obtain ⟨_ | _, _ | _, _ | _⟩ := r <;> simp [TextRecord.fields?, TextRecord.ofFields]

theorem validate_ofFields (operation : TextOperation) (operand : TextOperand) :
    validate (.ofFields operation operand) = validateFields operation operand := rfl

/-- A record without exactly two fields gives the free error. -/
theorem validate_of_malformed {r : TextRecord} (h : r.fields? = none) :
    validate r = .error (Config.malformedRecordError r) := by
  simp [validate, h]

/-- The operation of a name is the one whose mnemonic it is. -/
theorem operationNamed_eq_some {name : String} {k : OperationKind} :
    operationNamed name = some k ↔ name = mnemonic k := by
  refine ⟨fun h => ?_, fun h => h ▸ operationNamed_mnemonic k⟩
  unfold operationNamed at h
  split at h
  · cases h; assumption
  · split at h
    · cases h; assumption
    · split at h
      · cases h; assumption
      · split at h
        · cases h; assumption
        · cases h

/-- What validation accepts: exactly the records of a known operation with an integer in its range. -/
theorem validate_cases {r : TextRecord} {i : Instr} (h : validate r = .ok i) :
    ∃ k v, r = textRecord k v ∧ operandInRange k v = true ∧
      i = k.instr (BitVec.ofInt 34 (normalizedOperand k v)) := by
  unfold validate at h
  split at h
  · cases h
  · rename_i operation operand hr
    rw [fields?_eq_some] at hr
    subst hr
    unfold validateFields at h
    split at h
    · cases h
    · rename_i k hk
      cases operation with
      | notText => cases hk
      | name text =>
        obtain rfl := operationNamed_eq_some.mp hk
        cases operand with
        | notInteger => cases h
        | integer v =>
          simp only at h
          split at h
          · rename_i hv
            exact ⟨k, v, rfl, hv, by simpa [eq_comm] using h⟩
          · cases h

/-- Validation of a record of one of the four operations with an integer operand. -/
theorem validate_textRecord (k : OperationKind) (v : Int) :
    validate (textRecord k v) =
      if operandInRange k v then .ok (k.instr (BitVec.ofInt 34 (normalizedOperand k v)))
      else .error .operandOutOfRange := by
  simp [validate, textRecord, validateFields, TextOperation.kind?]

/-- An operand field holds every integer of its 34 bits. -/
theorem operandField_ofInt_toNat {v : Int} (h0 : 0 ≤ v) (h1 : v < 2 ^ 34) :
    ((BitVec.ofInt 34 v).toNat : Int) = v := by
  rw [BitVec.toNat_ofInt]
  omega

/-- The records of encoded instructions are the records of their words. -/
theorem flatMap_encodeBytes (is : List Instr) : is.flatMap encodeBytes = (is.map encode).flatMap wordRecord := by
  induction is with
  | nil => rfl
  | cons i is ih => simp [encodeBytes, ih]

/-- Disassembly of a record is disassembly of its word. -/
theorem disassemble_wordRecord (w : InsnWord) : disassemble (wordRecord w) = some (disassembleWord w) := by
  simp [wordRecord, disassemble]

end Sys2Proof.Machine
end

