-- ==== Sys2Proof/Tests/Slice0.lean ====
section
/-! SUPPORT. Small tests with expected results from spec/95_test_vectors.md or hand calculation from the rules, and for
every statement with hypotheses a theorem with a concrete state and operands that meet them, at the boundary values of
each clause. -/

open Sys2Proof Sys2Proof.Machine

namespace Sys2Proof.Tests

/-- A running machine of `n` cells with an accumulator and the listed cells. -/
def machine (n : Nat) (acc : Int) (cells : List (Nat × Int)) : State :=
  { State.powerOn { memCells := n, cellWidth := 64 } with acc := acc, mem := { cells := cells } }

/-- The state a step leaves, where it answers one. -/
def after (s : State) : Option State :=
  match step s with
  | .next t => some t
  | .fault _ => none
  | .refused _ => none

/-! ### Well-formedness: an ill-formed term for each check (R59, R64, R65) -/

theorem test_ill_formed_loadConst : (Instr.loadConst 0x20000#34).wellFormed = false := by decide
theorem test_ill_formed_loadMem : (Instr.loadMem 0x80000000#34).wellFormed = false := by decide
theorem test_ill_formed_storeMem : (Instr.storeMem 0x80000000#34).wellFormed = false := by decide
theorem test_ill_formed_abs : (Instr.abs 0x80000000#34).wellFormed = false := by decide
theorem test_well_formed_loadConst : (Instr.loadConst 0x1FFFF#34).wellFormed = true := by decide

/-! ### Decoding and encoding: 95_test_vectors.md sections 1.1 and 2.1 -/

theorem test_decode_loadConst_308 :
    decodeBytes [0x3A#8, 0x4D#8, 0x00#8, 0x00#8, 0x00#8] = .ok (.loadConst 308#34, []) := rfl
theorem test_decode_loadMem_705 :
    decodeBytes [0x53#8, 0xB0#8, 0x00#8, 0x00#8, 0x00#8] = .ok (.loadMem 705#34, []) := rfl
theorem test_decode_storeMem_791 :
    decodeBytes [0xD8#8, 0xC5#8, 0x00#8, 0x00#8, 0x00#8] = .ok (.storeMem 791#34, []) := rfl
theorem test_decode_abs_870 :
    decodeBytes [0x87#8, 0xD9#8, 0x00#8, 0x00#8, 0x00#8] = .ok (.abs 870#34, []) := rfl
theorem test_decode_loadMem_wide :
    decodeBytes [0x13#8, 0x00#8, 0x00#8, 0x00#8, 0x20#8] = .ok (.loadMem 0x80000000#34, []) := rfl
theorem test_decode_unknown_63 :
    decodeBytes [0xFF#8, 0xFF#8, 0xFF#8, 0xFF#8, 0xFF#8] = .error (.unknownOpcode 63#6) := rfl
theorem test_decode_unknown_0 :
    decodeBytes [0xC0#8, 0xFF#8, 0xFF#8, 0xFF#8, 0xFF#8] = .error (.unknownOpcode 0#6) := rfl
theorem test_decode_short : decodeBytes [0x3A#8, 0x4D#8, 0x00#8, 0x00#8] = .error .shortRecord := rfl

/-! ### Steps: 95_test_vectors.md sections 2.2 to 2.7 -/

/-- Section 2.2, the last row: the widest operand, from acc = 1234. -/
theorem test_loadConst_wide :
    after (machine 2048 1234 [(0, 0xFFFFFFFF3A)]) =
      some { machine 2048 17179738108 [(0, 0xFFFFFFFF3A)] with pc := 1 } := by decide

/-- Section 2.2: `FA FF 7F 00 00` loads -1. -/
theorem test_loadConst_minus_one :
    (after (machine 2048 1234 [(0, 0x7FFFFA)])).map State.acc = some (-1) := by decide

/-- Section 2.3: `LoadMem 705` with mem[705] = -9. -/
theorem test_loadMem_705 :
    after (machine 2048 0 [(0, 0xB053), (705, -9)]) =
      some { machine 2048 (-9) [(0, 0xB053), (705, -9)] with pc := 1 } := by decide

/-- Section 2.3: `LoadMem 2048` on 2048 cells halts with acc, pc and memory unchanged. -/
theorem test_loadMem_out_of_bounds :
    after (machine 2048 5 [(0, 0x20013)]) =
      some { machine 2048 5 [(0, 0x20013)] with halted := true, cause := .outOfBoundsAccess } := by decide

/-- Section 3, P8, step 2: `StoreMem 4` at cell 1 with acc = 19. -/
theorem test_storeMem_4 :
    after { machine 2048 19 [(0, 0x13), (1, 0x118)] with pc := 1 } =
      some { machine 2048 19 [(0, 0x13), (1, 0x118), (4, 0x13)] with pc := 2 } := by decide

/-- Section 3, P3, step 2: a store of 0 into a program cell. -/
theorem test_storeMem_zero :
    after { machine 2048 0 [(0, 0x3A), (1, 0xD8), (2, 0x17A), (3, 0x1FA)] with pc := 1 } =
      some { machine 2048 0 [(0, 0x3A), (1, 0xD8), (2, 0x17A)] with pc := 2 } := by decide

/-- Section 2.5: `Abs 0` into its own cell, acc = -3. -/
theorem test_abs_own_cell :
    after (machine 2048 (-3) [(0, 7)]) = some { machine 2048 3 [(0, 3)] with pc := 1 } := by decide

/-- Section 2.5: `Abs 8` on 8 cells updates the accumulator and halts with no write. -/
theorem test_abs_out_of_bounds :
    after (machine 8 (-1) [(0, 0x207)]) =
      some { machine 8 1 [(0, 0x207)] with halted := true, cause := .outOfBoundsAccess } := by decide

/-- Section 2.6: N = 3, pc = 3. -/
theorem test_end_of_memory :
    (after { machine 3 3 [] with pc := 3 }).map State.cause = some .endOfMemory := by decide

/-- Section 2.6: mem[pc] = -6, whose low 6 bits are 58. -/
theorem test_invalid_word : (after (machine 2048 0 [(0, -6)])).map State.cause = some .invalidWord := by decide

/-- Section 2.6, priority: opd = 2^31 is OUT_OF_BOUNDS_ACCESS, not UNKNOWN_OPCODE. -/
theorem test_priority :
    (after (machine 2048 0 [(0, 0x2000000013)])).map State.cause = some .outOfBoundsAccess := by decide

/-- Section 2.6: 0x3F is UNKNOWN_OPCODE, and the step is reported as HALTED. -/
theorem test_unknown_opcode :
    (after (machine 2048 0 [(0, 0x3F)])).map (fun t => (t.cause, t.report)) =
      some (.unknownOpcode, .halted) := by decide

/-- Section 2.7: 3 bytes are no program. -/
theorem test_load_malformed :
    ((machine 4 9 []).load [0x01#8, 0x02#8, 0x03#8]).1 = .malformedProgram := by decide

/-- Section 2.7: a record that is no instruction is loaded all the same. -/
theorem test_load_unchecked :
    (machine 2048 9 [(7, 1)]).load [0x40#8, 0#8, 0#8, 0#8, 0#8] = (.ok, machine 2048 0 [(0, 0x40)]) := by decide

/-! ### The toolchain: 95_test_vectors.md sections 1.2 and 1.3 -/

theorem test_assemble_negative :
    assemble [textRecord .loadConst (-15)] = .ok [0x7A#8, 0xFC#8, 0x7F#8, 0x00#8, 0x00#8] := by decide
theorem test_disassemble_negative :
    disassemble [0x7A#8, 0xFC#8, 0x7F#8, 0x00#8, 0x00#8] = some (.known .loadConst, -15) := by decide
theorem test_loadConst_range : validate (textRecord .loadConst 131072) = .error .operandOutOfRange := by decide
theorem test_address_range : validate (textRecord .loadMem (-1)) = .error .operandOutOfRange := by decide
theorem test_unknown_operation :
    validate (.ofFields (.name "Jump") (.integer 0)) = .error .unknownOperation := by decide
/-- R69: a record with a third field is refused, though its two fields are right. -/
theorem test_extra_field :
    ∃ e, validate { operation := some (.name "Abs"), operand := some (.integer 1), otherFields := ["size"] } = .error e :=
  ⟨_, rfl⟩
theorem test_spelling : spelling .loadConst (-15) = "LoadConst -15" := by decide

/-! ### Witnesses: states and operands that meet the statements' hypotheses -/

theorem witness_LoadMemLoadsTheAddressedCell :
    (9#34).toNat < (machine 10 0 []).cfg.memCells ∧ (machine 10 0 []).cfg.memCells ≤ (10#34).toNat ∧
    ((machine 10 0 [(0, 0x13)]).halted = false ∧ (0#34).toNat = (machine 10 0 [(0, 0x13)]).pc ∧
      (machine 10 0 [(0, 0x13)]).mem.read 0 = ((encode (.loadMem 0#34)).toNat : Int)) ∧
    ([0x3A#40, 0x13#40].length ≤ (machine 2 0 []).cfg.memCells ∧ (1#34).toNat < (machine 2 0 []).cfg.memCells) ∧
    validate (textRecord .loadMem 0x7FFFFFFF) = .ok (.loadMem 0x7FFFFFFF#34) := by decide

theorem witness_StoreMemStoresTheAccumulator :
    ((9#34).toNat < (machine 10 0 []).cfg.memCells ∧ (machine 10 0 []).cfg.memCells ≤ (10#34).toNat) ∧
    (∃ t, exec (.storeMem 9#34) (machine 10 0 []) = .next t ∧
      ∃ u : State, u.cfg = t.cfg ∧ u.mem = t.mem ∧ u.pc = (9#34).toNat ∧ (machine 10 0 []).acc = 0) ∧
    (∃ t, exec (.storeMem 9#34) (machine 10 (-1) []) = .next t ∧
      ∃ u : State, u.cfg = t.cfg ∧ u.mem = t.mem ∧ u.pc = (9#34).toNat ∧ (machine 10 (-1) []).acc < 0) ∧
    (∃ t, exec (.storeMem 9#34) (machine 10 0x7A []) = .next t ∧
      ∃ u : State, u.cfg = t.cfg ∧ u.mem = t.mem ∧ u.pc = (9#34).toNat ∧
        (machine 10 0x7A []).acc = ((encode (.loadConst 1#34)).toNat : Int)) ∧
    validate (textRecord .storeMem 0x7FFFFFFF) = .ok (.storeMem 0x7FFFFFFF#34) :=
  ⟨by decide, ⟨_, rfl, { machine 10 0 [] with pc := 9 }, rfl, rfl, rfl, rfl⟩,
    ⟨_, rfl, { machine 10 0 [(9, -1)] with pc := 9 }, rfl, rfl, rfl, by decide⟩,
    ⟨_, rfl, { machine 10 0 [(9, 0x7A)] with pc := 9 }, rfl, rfl, rfl, by decide⟩, by decide⟩

theorem witness_AbsReplacesAndStoresTheAccumulator :
    (9#34).toNat < (machine 10 (-7) []).cfg.memCells ∧ (machine 10 (-7) []).cfg.memCells ≤ (10#34).toNat := by decide

theorem witness_AbsoluteValueIsExactButAtTheMostNegativeValue :
    (1 ≤ 64 ∧ (-2 ^ (64 - 1) : Int) < -2 ^ 63 + 1 ∧ (-2 ^ 63 + 1 : Int) ≤ 2 ^ (64 - 1) - 1) ∧
    ((-2 ^ (64 - 1) : Int) < 2 ^ 63 - 1 ∧ (2 ^ 63 - 1 : Int) ≤ 2 ^ (64 - 1) - 1) := by decide

theorem witness_SignExtensionOfTheOperand : (0x1FFFF#34).toNat < 2 ^ 17 := by decide

theorem witness_OutOfBoundsOperandHaltsWithoutAnAccess :
    ((Instr.abs 10#34).kind ≠ .loadConst ∧ (machine 10 (-7) []).cfg.memCells ≤ (Instr.abs 10#34).operand.toNat) ∧
    ((machine (2 ^ 31) 0 []).cfg.Valid ∧ 2 ^ 31 ≤ (Instr.storeMem 0x80000000#34).operand.toNat) ∧
    (∃ t, step (machine 8 (-1) [(0, 0x207)]) = .next t ∧ (machine 8 (-1) [(0, 0x207)]).halted = false ∧
      t.halted = true ∧ t.cause = .outOfBoundsAccess) :=
  ⟨by decide, by decide, _, rfl, rfl, rfl, rfl⟩

theorem witness_dispatch :
    ((machine 1 0 [(0, 0x4D3A)]).halted = false ∧ (machine 1 0 [(0, 0x4D3A)]).pc < 1 ∧
      (machine 1 0 [(0, 0x4D3A)]).mem.read 0 = ((0x4D3A#40).toNat : Int) ∧ (decodeFields 0x4D3A#40).1 = 58#6) ∧
    ((machine 1 0 [(0, 0xB053)]).mem.read 0 = ((0xB053#40).toNat : Int) ∧ (decodeFields 0xB053#40).1 = 19#6) ∧
    ((machine 1 0 [(0, 0xC5D8)]).mem.read 0 = ((0xC5D8#40).toNat : Int) ∧ (decodeFields 0xC5D8#40).1 = 24#6) ∧
    ((machine 1 0 [(0, 0xD987)]).mem.read 0 = ((0xD987#40).toNat : Int) ∧ (decodeFields 0xD987#40).1 = 7#6) ∧
    ((machine 10 1 [(9, 5)]).cfg = (machine 10 1 []).cfg ∧ (machine 10 1 [(9, 5)]).cfg.memCells ≤ (10#34).toNat ∧
      (machine 10 1 [(9, 5)]).acc = (machine 10 1 []).acc) := by decide

theorem witness_DatapathsReadAndWriteOnlyTheirTable :
    (∃ t, exec (.loadConst 5#34) (machine 10 0 []) = .next t) ∧
    ((machine 10 1 [(9, 5)]).cfg = (machine 10 2 [(3, 4), (9, 5)]).cfg ∧ (9#34).toNat < 10 ∧
      (machine 10 1 [(9, 5)]).mem.read 9 = (machine 10 2 [(3, 4), (9, 5)]).mem.read 9) ∧
    (machine 10 1 [(9, 5)]).acc = (machine 10 1 []).acc ∧
    ((decodeFields 0x4D3A#40).1 = (decodeFields 0x3A#40).1 ∧ decode 0x4D3A#40 = .ok (.loadConst 308#34)) ∧
    ((machine 10 0 [(0, 0x40)]).mem.read 0 = ((0x40#40).toNat : Int) ∧ (0x40#40) ≠ 0 ∧
      (decodeFields 0x40#40).1 ≠ 58#6 ∧ (decodeFields 0x40#40).1 ≠ 19#6 ∧ (decodeFields 0x40#40).1 ≠ 24#6 ∧
      (decodeFields 0x40#40).1 ≠ 7#6) :=
  ⟨⟨_, rfl⟩, by decide, rfl, by decide, by decide⟩

theorem witness_RecordIsALittleEndianWord :
    decodeBytes [0x3A#8, 0x4D#8, 0x00#8, 0x00#8, 0x00#8, 0x01#8] = .ok (.loadConst 308#34, [0x01#8]) ∧
    1 ≤ (machine 1 0 []).cfg.memCells := by decide

theorem witness_FieldsRoundTripThroughTheWord : 0 < 5 ∧ 4 < 5 := by decide

theorem witness_DecodeAndEncodeAgree :
    decode 0xFFFFFFFFC7#40 = .ok (.abs 0x3FFFFFFFF#34) ∧
    encode (.loadMem 705#34) = encode (.loadMem 705#34) := by decide

theorem witness_IllegalOpcodesHaltTheMachine :
    ((machine 1 0 []).halted = false ∧ (machine 1 0 []).pc < (machine 1 0 []).cfg.memCells ∧
      (machine 1 0 []).mem.read 0 = ((0#40).toNat : Int)) ∧
    ((machine 1 0 [(0, 0x3F)]).mem.read 0 = ((0x3F#40).toNat : Int) ∧ (0x3F#40).toNat % 64 = 63) ∧
    ((machine 1 0 [(0, 0x7A)]).mem.read 0 = ((0x7A#40).toNat : Int) ∧ (0x7A#40).toNat % 64 = 58) ∧
    ((machine 1 0 [(0, 0x40)]).mem.read 0 = ((0x40#40).toNat : Int) ∧ (0x40#40).toNat % 64 = 0 ∧
      (0x40#40).toNat / 64 ≠ 0) := by decide

theorem witness_OpcodeSelectsTheInstruction :
    (0x4D3A#40).toNat % 64 = 58 ∧ (0xB053#40).toNat % 64 = 19 ∧ (0xC5D8#40).toNat % 64 = 24 ∧
    (0xD987#40).toNat % 64 = 7 := by decide

theorem witness_StepRunsTheDecodedInstruction :
    (machine 1 0 [(0, 0x4D3A)]).halted = false ∧
    (machine 1 0 [(0, 0x4D3A)]).pc < (machine 1 0 [(0, 0x4D3A)]).cfg.memCells ∧
    (machine 1 0 [(0, 0x4D3A)]).mem.read 0 = ((0x4D3A#40).toNat : Int) ∧
    decodeBytes (wordRecord 0x4D3A#40) = .ok (.loadConst 308#34, []) := by decide

theorem witness_PlacedWordIsRunNext : 1 ≤ (machine 1 0 []).cfg.memCells := by decide

theorem witness_CompletedStepAdvancesThePc :
    ((machine 10 0 [(0, 0x253)]).halted = false ∧ (machine 10 0 [(0, 0x253)]).cause = .none ∧
      (machine 10 0 [(0, 0x253)]).fetchInstr = .ok (.loadMem 9#34) ∧
      (Instr.loadMem 9#34).operand.toNat < (machine 10 0 [(0, 0x253)]).cfg.memCells) ∧
    ((machine 1 0 [(0, 0x7A)]).fetchInstr = .ok (.loadConst 1#34) ∧
      (Instr.loadConst 1#34).kind = .loadConst) := by decide

theorem witness_EndOfMemoryHalts :
    ({ machine 3 0 [] with pc := 3 } : State).cfg.memCells ≤ ({ machine 3 0 [] with pc := 3 } : State).pc ∧
    (∃ t, step { machine 3 0 [(2, 0x7A)] with pc := 2 } = .next t ∧ t.pc = 3) :=
  ⟨by decide, _, rfl, rfl⟩

theorem witness_SentinelWordHalts :
    ((machine 1 5 []).halted = false ∧ (machine 1 5 []).pc < (machine 1 5 []).cfg.memCells ∧
      (machine 1 5 []).mem.read 0 = 0) ∧
    (machine 1 5 []).cause ≠ .endSentinel ∧ (∃ t, step (machine 1 5 []) = .next t ∧ t.cause = .endSentinel) :=
  ⟨by decide, by decide, _, rfl, rfl⟩

theorem witness_ValueThatIsNoWordHalts :
    ((machine 1 0 [(0, -1)]).pc < (machine 1 0 [(0, -1)]).cfg.memCells ∧ (machine 1 0 [(0, -1)]).mem.read 0 < 0) ∧
    (2 ^ 40 ≤ (machine 1 0 [(0, 2 ^ 40)]).mem.read 0) ∧
    (∃ t, step (machine 1 0 [(0, 2 ^ 40)]) = .next t ∧ t.cause = .invalidWord) :=
  ⟨by decide, by decide, _, rfl, rfl⟩

/-- One state for each clause, N = 8: an Abs and a LoadMem of cell 8, the first out of bounds, and the sentinel. -/
theorem witness_RaisingChangesOnlyHaltedAndCause :
    ((machine 8 (-1) [(0, 0x207)]).halted = false ∧
      (machine 8 (-1) [(0, 0x207)]).fetchInstr = .ok (.abs 8#34) ∧
      ∃ t, step (machine 8 (-1) [(0, 0x207)]) = .next t ∧ t.halted = true ∧ t.acc = 1) ∧
    ((machine 8 (-1) [(0, 0x213)]).halted = false ∧
      (machine 8 (-1) [(0, 0x213)]).fetchInstr = .ok (.loadMem 8#34) ∧
      ∃ t, step (machine 8 (-1) [(0, 0x213)]) = .next t ∧ t.halted = true ∧ t.acc = -1) ∧
    ((machine 8 (-1) []).halted = false ∧ (machine 8 (-1) []).fetchInstr = .error .endSentinel ∧
      ∃ t, step (machine 8 (-1) []) = .next t ∧ t.halted = true) :=
  ⟨⟨rfl, rfl, _, rfl, rfl, rfl⟩, ⟨rfl, rfl, _, rfl, rfl, rfl⟩, rfl, rfl, _, rfl, rfl⟩

theorem witness_MachineHaltsInExactlyFiveWays :
    (machine 8 (-1) [(0, 0x207)]).halted = false ∧ (machine 8 (-1) [(0, 0x207)]).cause = .none ∧
    ∃ t, step (machine 8 (-1) [(0, 0x207)]) = .next t :=
  ⟨rfl, rfl, _, rfl⟩

/-- One boundary state for each path: N = 10, the operand 9 in bounds and 10 out of bounds. -/
theorem witness_StepFollowsTheEffectTable :
    (machine 0 0 []).cfg.memCells ≤ (machine 0 0 []).pc ∧
    (machine 10 0 []).mem.read 0 = 0 ∧
    (machine 10 0 [(0, -1)]).mem.read 0 < 0 ∧
    ((machine 10 0 [(0, 0x3F)]).mem.read 0 = ((0x3F : Nat) : Int) ∧ 0x3F % 64 = 63) ∧
    ((machine 10 0 [(0, 0x40003A)]).mem.read 0 = ((0x40003A : Nat) : Int) ∧ 0x40003A % 64 = 58) ∧
    ((machine 10 0 [(0, 0x293)]).mem.read 0 = ((0x293 : Nat) : Int) ∧ 0x293 % 64 = 19 ∧ 0x293 / 64 = 10) ∧
    ((machine 10 0 [(0, 0x253)]).mem.read 0 = ((0x253 : Nat) : Int) ∧ 0x253 % 64 = 19 ∧ 0x253 / 64 = 9) ∧
    ((machine 10 0 [(0, 0x298)]).mem.read 0 = ((0x298 : Nat) : Int) ∧ 0x298 % 64 = 24 ∧ 0x298 / 64 = 10) ∧
    ((machine 10 0 [(0, 0x258)]).mem.read 0 = ((0x258 : Nat) : Int) ∧ 0x258 % 64 = 24 ∧ 0x258 / 64 = 9) ∧
    ((machine 10 0 [(0, 0x287)]).mem.read 0 = ((0x287 : Nat) : Int) ∧ 0x287 % 64 = 7 ∧ 0x287 / 64 = 10) ∧
    ((machine 10 0 [(0, 0x247)]).mem.read 0 = ((0x247 : Nat) : Int) ∧ 0x247 % 64 = 7 ∧ 0x247 / 64 = 9) := by decide

theorem witness_ProgramCounterStaysInRange :
    ((machine 10 0 [(0, 5)]).pc < 10 ∧ ({ machine 6 1 [(5, 5)] with pc := 5 } : State).pc < 6 ∧
      (machine 10 0 [(0, 5)]).mem.read 0 = (machine 6 1 [(5, 5)]).mem.read 5) ∧
    (∃ t, step { machine 3 0 [(2, 0x7A)] with pc := 2 } = .next t ∧ t.pc = 3) :=
  ⟨by decide, _, rfl, rfl⟩

theorem witness_HaltedMachineIsLeftOnlyByLoadOrReset :
    ((machine 3 0 []).raise .endSentinel).halted = true ∧
    [BlockOp.step, .readCell 0, .snapshot].all BlockOp.keepsProgram = true := by decide

theorem witness_DrivingLoopStopsAtTheFirstHalt : (machine 3 0 []).halted = false := by decide

/-- A running machine in the middle of a program, with a negative value in its last cell. -/
def midway : State := { machine 10 (-7) [(0, 0x4D3A), (9, -65536)] with pc := 1 }

theorem midway_cell (a : Nat) : midway.mem.read a = if a = 0 then 0x4D3A else if a = 9 then -65536 else 0 := by
  simp [midway, machine, Memory.read, readCells]

theorem midway_valuesReachable : midway.ValuesReachable := by
  refine ⟨by decide, fun a => ?_⟩
  rw [midway_cell]
  split
  · decide
  · split <;> decide

theorem midway_inv : midway.Inv where
  cfgValid := by decide
  pcInRange := by decide
  causeAgrees := by decide
  memWf := by decide
  cellsBelowN := by decide
  fitsCells := by
    refine ⟨by decide, fun a => ?_⟩
    rw [midway_cell]
    split
    · decide
    · split <;> decide

theorem witness_EveryStepKeepsTheInvariant : midway.Inv ∧ ∃ t, step midway = .next t :=
  ⟨midway_inv, _, rfl⟩

theorem witness_EveryBlockOperationKeepsTheInvariant :
    midway.Inv ∧ Config.Valid { memCells := 1, cellWidth := 41 } :=
  ⟨midway_inv, by decide⟩

theorem witness_ValuesStayReachable :
    midway.cfg.Valid ∧ midway.ValuesReachable ∧ ∃ t, step midway = .next t :=
  ⟨by decide, midway_valuesReachable, _, rfl⟩

/-- `midway` built with the narrowest width. -/
def midwayNarrow : State := { midway with cfg := { memCells := 10, cellWidth := 41 } }

theorem witness_EveryWidthBehavesTheSame :
    midway.cfg.Valid ∧ midway.ValuesReachable ∧ midway.EqualButForWidth midwayNarrow ∧
    41 ≤ midwayNarrow.cfg.cellWidth ∧ midway.cfg.cellWidth ≠ midwayNarrow.cfg.cellWidth :=
  ⟨by decide, midway_valuesReachable, ⟨rfl, rfl, rfl, rfl, rfl, rfl⟩, by decide, by decide⟩

theorem witness_EveryRunHalts : midway.halted = false ∧ ∃ t, step midway = .next t :=
  ⟨rfl, _, rfl⟩

theorem witness_CanonicalMemoriesAreEqualWhenTheyReadTheSame :
    (midway.mem.wf = true ∧ ∀ a, midway.mem.read a = midway.mem.read a) ∧ (0 : Nat) ≠ 1 :=
  ⟨⟨by decide, fun _ => rfl⟩, by decide⟩

theorem witness_ReadsHaveNoSideEffect :
    ((machine 10 0 [(0, 0x253)]).halted = false ∧
      (machine 10 0 [(0, 0x253)]).fetchInstr = .ok (.loadMem 9#34)) ∧
    ((machine 10 0 []).halted = false ∧ (machine 10 0 []).fetchInstr = .error .endSentinel) ∧
    ((machine 10 0 []).mem = (machine 10 7 []).mem ∧ (machine 10 0 []).pc = (machine 10 7 []).pc ∧
      (machine 10 0 []).cfg.memCells = (machine 10 7 []).cfg.memCells ∧ machine 10 0 [] ≠ machine 10 7 []) ∧
    ((∃ t, exec (.loadMem 9#34) (machine 10 0 [(9, 5)]) = .next t) ∧
      (9#34).toNat < (machine 10 0 [(9, 5)]).cfg.memCells) ∧
    (∃ t, (machine 10 0 []).writeCell? 9 5 = some t) ∧ (8 : Nat) ≠ 9 :=
  ⟨⟨rfl, rfl⟩, ⟨rfl, rfl⟩, ⟨rfl, rfl, rfl, by decide⟩, ⟨⟨_, rfl⟩, by decide⟩, ⟨_, rfl⟩, by decide⟩

theorem witness_NextStepSeesTheStore :
    ((9#34).toNat < (machine 10 5 []).cfg.memCells ∧ ∃ t, exec (.storeMem 9#34) (machine 10 5 []) = .next t) ∧
    (∃ t, exec (.abs 9#34) (machine 10 (-5) []) = .next t) ∧
    ((machine 2 0x7A []).pc + 1 < (machine 2 0x7A []).cfg.memCells ∧ (1#34).toNat = (machine 2 0x7A []).pc + 1 ∧
      (∃ t, exec (.storeMem 1#34) (machine 2 0x7A []) = .next t) ∧
      (machine 2 0x7A []).acc = ((encode (.loadConst 1#34)).toNat : Int)) ∧
    ((∃ t, exec (.abs 1#34) (machine 2 (-0x7A) []) = .next t) ∧
      absW 64 (machine 2 (-0x7A) []).acc = ((encode (.loadConst 1#34)).toNat : Int)) :=
  ⟨⟨by decide, _, rfl⟩, ⟨_, rfl⟩, ⟨by decide, by decide, ⟨_, rfl⟩, by decide⟩, ⟨_, rfl⟩, by decide⟩

theorem witness_ReadCellAnswersOrIsAbsent :
    ((0 : Int) ≤ 9 ∧ (9 : Int) < (machine 10 0 []).cfg.memCells) ∧ (-1 : Int) < 0 ∧
    (((machine 10 0 []).cfg.memCells : Nat) : Int) ≤ 10 := by decide

theorem witness_SnapshotCopiesTheState : 9 < (machine 10 0 []).cfg.memCells := by decide

theorem witness_ResetClearsTheState :
    9 < ({ memCells := 10, cellWidth := 64 } : Config).memCells ∧
    1 ≤ ({ memCells := 1, cellWidth := 64 } : Config).memCells := by decide

theorem witness_CauseCodesAndKinds : Cause.invalidWord.code = Cause.invalidWord.code := by decide

/-- One record, `LoadConst 308`, into a machine of two cells that had halted. -/
theorem witness_load_ok :
    ((machine 2 9 [(1, 5)]).raise .endOfMemory).load [0x3A#8, 0x4D#8, 0#8, 0#8, 0#8] =
      (.ok, machine 2 0 [(0, 0x4D3A)]) := by decide

theorem witness_EntryPointIsCellZero :
    ∃ t, ((machine 2 9 [(1, 5)]).raise .endOfMemory).load [0x3A#8, 0x4D#8, 0#8, 0#8, 0#8] = (.ok, t) :=
  ⟨_, witness_load_ok⟩

theorem witness_BinaryProgramIsASequenceOfRecords :
    programWords [0x3A#8, 0x4D#8, 0#8, 0#8, 0#8] = some [0x4D3A#40] ∧ 0 < [0x4D3A#40].length := by decide

theorem witness_LoadWritesTheRecordsFromCellZero :
    [0x3A#8, 0x4D#8, 0#8, 0#8, 0#8].length % 5 = 0 ∧
    [0x3A#8, 0x4D#8, 0#8, 0#8, 0#8].length / 5 ≤ (machine 1 0 []).cfg.memCells := by decide

theorem witness_LoadLaysOutTheAddressMap :
    programWords [0x3A#8, 0x4D#8, 0#8, 0#8, 0#8] = some [0x4D3A#40] ∧
    (∃ t, ((machine 2 9 [(1, 5)]).raise .endOfMemory).load [0x3A#8, 0x4D#8, 0#8, 0#8, 0#8] = (.ok, t) ∧
      ∃ u : State, u.cfg = t.cfg ∧ u.mem = t.mem ∧ u.pc = 1 ∧ [0x4D3A#40].length ≤ u.pc ∧
        u.pc < u.cfg.memCells) ∧
    1 < (machine 2 0 []).cfg.memCells :=
  ⟨by decide, ⟨_, witness_load_ok, { machine 2 0 [(0, 0x4D3A)] with pc := 1 }, rfl, rfl, rfl, by decide, by decide⟩,
    by decide⟩

theorem witness_MalformedProgramLeavesTheState : [0x01#8, 0x02#8, 0x03#8].length % 5 ≠ 0 := by decide

theorem witness_ProgramTooLargeLeavesTheState :
    (machine 1 0 []).cfg.memCells < (List.replicate 10 (0x3A#8)).length / 5 ∧
    (List.replicate 10 (0x3A#8)).length % 5 = 0 ∧
    (machine 1 0 []).cfg.memCells < (List.replicate 11 (0x3A#8)).length / 5 ∧
    (List.replicate 11 (0x3A#8)).length % 5 ≠ 0 := by decide

theorem witness_LoadReplacesTheStateOrLeavesIt :
    (∃ t, (machine 4 9 []).load [0x01#8] = (.malformedProgram, t)) ∧
    (∃ t, ((machine 2 9 [(1, 5)]).raise .endOfMemory).load [0x3A#8, 0x4D#8, 0#8, 0#8, 0#8] = (.ok, t)) ∧
    (machine 2 1 []).cfg = ((machine 2 9 [(1, 5)]).raise .endOfMemory).cfg :=
  ⟨⟨_, rfl⟩, ⟨_, witness_load_ok⟩, rfl⟩

theorem witness_ProgramMayRelyOnInitialValues :
    (∃ t, (machine 3 9 []).load [0x3A#8, 0x4D#8, 0#8, 0#8, 0#8] = (.ok, t) ∧ 2 < t.cfg.memCells ∧
      ∃ u, exec (.storeMem 1#34) t = .next u ∧ ∃ v, exec (.loadMem 2#34) u = .next v) ∧
    [0x3A#8, 0x4D#8, 0#8, 0#8, 0#8].length / 5 ≤ (2#34).toNat ∧ (2#34) ≠ (1#34) :=
  ⟨⟨_, rfl, by decide, _, rfl, _, rfl⟩, by decide⟩

/-- After Load of `StoreMem 1` on three cells: two requests, the step of which stores to cell 1 and not to cell 2. -/
theorem witness_cell_not_stored_to :
    (machine 3 9 []).load [0x58#8, 0#8, 0#8, 0#8, 0#8] = (.ok, machine 3 0 [(0, 0x58)]) ∧
    [BlockOp.readCell 2, .step].all BlockOp.keepsProgram = true ∧ 1 ≤ 2 ∧ 2 < (machine 3 0 [(0, 0x58)]).cfg.memCells ∧
    ∀ m, [BlockOp.readCell 2, .step][m]? = some .step →
      ¬ ((machine 3 0 [(0, 0x58)]).performAll ([BlockOp.readCell 2, .step].take m)).StoresTo 2 := by
  refine ⟨by decide, by decide, by decide, by decide, ?_⟩
  intro m hm
  have : m = 1 := by
    match m, hm with
    | 0, h => cases h
    | 1, _ => rfl
    | n + 2, h => simp at h
  subst this
  rintro ⟨-, -, i, hf, -, ho⟩
  have : (machine 3 0 [(0, 0x58)]).fetchInstr = .ok (.storeMem 1#34) := by decide
  have hi : Except.ok (.storeMem 1#34) = (Except.ok i : Except Cause Instr) := this.symm.trans hf
  cases hi
  exact absurd ho (by decide)

theorem witness_cell_stored_to : (machine 3 0 [(0, 0x58)]).StoresTo 1 :=
  ⟨rfl, by decide, .storeMem 1#34, by decide, .inl rfl, by decide⟩

theorem witness_ValidationFailsFast :
    (∀ k : OperationKind, TextOperation.name "Jump" ≠ .name (mnemonic k)) ∧
    validateAll [textRecord .abs 1] = .ok [.abs 1#34] ∧
    validate (textRecord .loadMem (-1)) = .error .operandOutOfRange :=
  ⟨fun k => by cases k <;> decide, by decide, by decide⟩

theorem witness_LoadConstOperandIsFolded :
    ((-65536 : Int) ≤ -65536 ∧ (-65536 : Int) ≤ 131071) ∧ ((-65536 : Int) ≤ 131071 ∧ (131071 : Int) ≤ 131071) ∧
    (-65537 : Int) < -65536 ∧ (131071 : Int) < 131072 := by decide

theorem witness_AddressOperandRange :
    OperationKind.abs ≠ .loadConst ∧ ((0 : Int) ≤ 0x7FFFFFFF ∧ (0x7FFFFFFF : Int) ≤ 0x7FFFFFFF) ∧
    (-1 : Int) < 0 ∧ (0x7FFFFFFF : Int) < 0x80000000 := by decide

theorem witness_AssemblyConcatenatesInOrder :
    List.Forall₂ (fun r i => validate r = .ok i) [textRecord .loadConst (-15)] [.loadConst 0x1FFF1#34] ∧
    assemble [textRecord .loadConst (-15)] = .ok [0x7A#8, 0xFC#8, 0x7F#8, 0x00#8, 0x00#8] ∧
    validate (textRecord .loadMem (-1)) = .error .operandOutOfRange :=
  ⟨.cons (by decide) .nil, by decide, by decide⟩

/-- Each clause at a boundary of its range, and a record for each way to be malformed (an operand missing, an operation
missing, a third field). -/
theorem witness_MalformedRecordFailsValidation :
    (validate (textRecord .storeMem 0x7FFFFFFF)).toOption = some (.storeMem 0x7FFFFFFF#34) ∧
    ((OperationKind.loadConst = .loadConst → (-65536 : Int) ≤ -65536 ∧ (-65536 : Int) ≤ 131071) ∧
      (OperationKind.abs ≠ .loadConst → (0 : Int) ≤ 0x7FFFFFFF ∧ (0x7FFFFFFF : Int) ≤ 0x7FFFFFFF)) ∧
    (({ operation := some (.name "Abs"), operand := none, otherFields := [] } : TextRecord).operand = none ∧
      ({ operation := none, operand := some (.integer 1), otherFields := [] } : TextRecord).operation = none ∧
      ({ operation := some (.name "Abs"), operand := some (.integer 1), otherFields := ["size"] } :
        TextRecord).otherFields ≠ []) ∧
    validateAll [textRecord .abs 1] = .ok [.abs 1#34] := by decide

theorem witness_DisassemblySignExtendsOnlyLoadConst :
    (recordWord 0x3A#8 0x4D#8 0#8 0#8 0#8).toNat % 64 = 58 ∧ (recordWord 0x53#8 0xB0#8 0#8 0#8 0#8).toNat % 64 = 19 ∧
    (recordWord 0xD8#8 0xC5#8 0#8 0#8 0#8).toNat % 64 = 24 ∧ (recordWord 0x87#8 0xD9#8 0#8 0#8 0#8).toNat % 64 = 7 ∧
    (recordWord 0x3F#8 0#8 0#8 0#8 0#8).toNat % 64 = 63 := by decide

theorem witness_SymbolicRoundTripAndItsException :
    validate (textRecord .loadConst 65535) = .ok (.loadConst 0xFFFF#34) ∧
    validate (textRecord .loadConst 65536) = .ok (.loadConst 0x10000#34) ∧
    ((65536 : Int) ≤ 65536 ∧ (65536 : Int) ≤ 131071) ∧ ((65536 : Int) ≤ 131071 ∧ (131071 : Int) ≤ 131071) := by decide

theorem witness_AssembledProgramIsFetchedBack :
    assemble [textRecord .loadConst (-15)] = .ok [0x7A#8, 0xFC#8, 0x7F#8, 0x00#8, 0x00#8] ∧
    [textRecord .loadConst (-15)].length ≤ (machine 1 0 []).cfg.memCells := by decide

end Sys2Proof.Tests
end

section
/-! SUPPORT. How the program counter moves (spec 10_state.md R17, R18): what each instruction does in and out of bounds,
that executing commutes with a change of `pc`, and from these the range of `pc` under the block's operations. -/

namespace Sys2Proof.Machine

/-! ### Executing an instruction, in and out of bounds -/

theorem exec_loadConst (opd : OperandField) (s : State) :
    exec (.loadConst opd) s = .next (s.setAcc (sext17 opd)).advance := rfl

theorem exec_loadMem_of_lt {opd : OperandField} {s : State} (h : cellAddress opd < s.cfg.memCells) :
    exec (.loadMem opd) s = .next (s.setAcc (s.mem.read (cellAddress opd))).advance := by
  simp only [exec, execLoadMem, State.readCell?_eq_some.mpr ⟨h, rfl⟩]

theorem exec_loadMem_of_le {opd : OperandField} {s : State} (h : s.cfg.memCells ≤ cellAddress opd) :
    exec (.loadMem opd) s = .next (s.raise .outOfBoundsAccess) := by
  simp only [exec, execLoadMem, State.readCell?_eq_none.mpr h]

theorem exec_storeMem_of_lt {opd : OperandField} {s : State} (h : cellAddress opd < s.cfg.memCells) :
    exec (.storeMem opd) s = .next (State.advance { s with mem := s.mem.write (cellAddress opd) s.acc }) := by
  simp only [exec, execStoreMem, State.writeCell?_eq_some.mpr ⟨h, rfl⟩]

theorem exec_storeMem_of_le {opd : OperandField} {s : State} (h : s.cfg.memCells ≤ cellAddress opd) :
    exec (.storeMem opd) s = .next (s.raise .outOfBoundsAccess) := by
  simp only [exec, execStoreMem, State.writeCell?_eq_none.mpr h]

theorem exec_abs_of_lt {opd : OperandField} {s : State} (h : cellAddress opd < s.cfg.memCells) :
    exec (.abs opd) s = .next (State.advance { s.setAcc (absW s.cfg.cellWidth s.acc) with
      mem := s.mem.write (cellAddress opd) (absW s.cfg.cellWidth s.acc) }) := by
  have hw : ∀ v, (s.setAcc v).writeCell? (cellAddress opd) v =
      some { s.setAcc v with mem := s.mem.write (cellAddress opd) v } :=
    fun v => State.writeCell?_eq_some.mpr ⟨h, rfl⟩
  simp only [exec, execAbs, State.setAcc_acc, hw]

theorem exec_abs_of_le {opd : OperandField} {s : State} (h : s.cfg.memCells ≤ cellAddress opd) :
    exec (.abs opd) s = .next ((s.setAcc (absW s.cfg.cellWidth s.acc)).raise .outOfBoundsAccess) := by
  have hw : ∀ v, (s.setAcc v).writeCell? (cellAddress opd) v = none :=
    fun _ => State.writeCell?_eq_none.mpr h
  simp only [exec, execAbs, State.setAcc_acc, hw]

/-! ### Executing at any `pc` -/

/-- The accumulator and memory an instruction leaves, and whether it raises or advances, are chosen before `pc` is:
whatever `pc` holds, the instruction ends in the same `raise` or the same `advance` (R18, R79, R97). -/
theorem exec_at_every_pc (i : Instr) (s : State) : ∃ (v : Int) (m : Memory),
    (∀ p, exec i { s with pc := p } =
      .next (State.raise { s with acc := v, mem := m, pc := p } .outOfBoundsAccess)) ∨
    (∀ p, exec i { s with pc := p } = .next (State.advance { s with acc := v, mem := m, pc := p })) := by
  cases i with
  | loadConst opd => exact ⟨sext17 opd, s.mem, .inr fun p => exec_loadConst opd { s with pc := p }⟩
  | loadMem opd =>
    rcases Nat.lt_or_ge (cellAddress opd) s.cfg.memCells with h | h
    · exact ⟨s.mem.read (cellAddress opd), s.mem, .inr fun p => exec_loadMem_of_lt (s := { s with pc := p }) h⟩
    · exact ⟨s.acc, s.mem, .inl fun p => exec_loadMem_of_le (s := { s with pc := p }) h⟩
  | storeMem opd =>
    rcases Nat.lt_or_ge (cellAddress opd) s.cfg.memCells with h | h
    · exact ⟨s.acc, s.mem.write (cellAddress opd) s.acc, .inr fun p => exec_storeMem_of_lt (s := { s with pc := p }) h⟩
    · exact ⟨s.acc, s.mem, .inl fun p => exec_storeMem_of_le (s := { s with pc := p }) h⟩
  | abs opd =>
    rcases Nat.lt_or_ge (cellAddress opd) s.cfg.memCells with h | h
    · exact ⟨absW s.cfg.cellWidth s.acc, s.mem.write (cellAddress opd) (absW s.cfg.cellWidth s.acc),
        .inr fun p => exec_abs_of_lt (s := { s with pc := p }) h⟩
    · exact ⟨absW s.cfg.cellWidth s.acc, s.mem, .inl fun p => exec_abs_of_le (s := { s with pc := p }) h⟩

/-- An instruction raises and leaves `pc`, or completes and adds one to it. -/
theorem exec_pc_cases {i : Instr} {s t : State} (h : exec i s = .next t) :
    t.cfg = s.cfg ∧ ((t.halted = true ∧ t.pc = s.pc) ∨ (t.halted = s.halted ∧ t.pc = s.pc + 1)) := by
  obtain ⟨v, m, hr | ha⟩ := exec_at_every_pc i s
  · cases h.symm.trans (hr s.pc)
    exact ⟨rfl, .inl ⟨rfl, rfl⟩⟩
  · cases h.symm.trans (ha s.pc)
    exact ⟨rfl, .inr ⟨rfl, rfl⟩⟩

/-- Settles O25: `exec_at_every_pc` at the state's own `pc` and at the other one. -/
theorem noInstructionReadsThePc : Obligations.NoInstructionReadsThePc := by
  intro i s p
  obtain ⟨v, m, hr | ha⟩ := exec_at_every_pc i s
  · exact ⟨_, hr s.pc, .inl ⟨rfl, hr p⟩⟩
  · exact ⟨_, ha s.pc, .inr ⟨rfl, ha p⟩⟩

/-! ### Fetch and step -/

/-- A fetch sees the cell at `pc` and nothing else of the state. -/
theorem State.fetchInstr_congr {s s' : State} (h : s.readCell? s.pc = s'.readCell? s'.pc) :
    s.fetchInstr = s'.fetchInstr := by
  unfold State.fetchInstr
  rw [h]

theorem State.fetchInstr_of_le {s : State} (h : s.cfg.memCells ≤ s.pc) : s.fetchInstr = .error .endOfMemory := by
  simp only [State.fetchInstr, State.readCell?_eq_none.mpr h]

theorem State.pc_lt_of_fetchInstr_ok {s : State} {i : Instr} (h : s.fetchInstr = .ok i) : s.pc < s.cfg.memCells := by
  by_contra hle
  rw [State.fetchInstr_of_le (Nat.le_of_not_lt hle)] at h
  cases h

/-- A step of a running machine completes from a cell of memory and adds one to `pc`, or halts and leaves it. -/
theorem step_pc_cases {s t : State} (hs : s.halted = false) (h : step s = .next t) :
    (t.halted = false ∧ t.pc = s.pc + 1 ∧ s.pc < s.cfg.memCells) ∨ (t.halted = true ∧ t.pc = s.pc) := by
  rcases step_cases h with ⟨hh, -⟩ | ⟨-, c, -, rfl⟩ | ⟨-, i, hf, he⟩
  · rw [hs] at hh; cases hh
  · exact .inr ⟨rfl, rfl⟩
  · obtain ⟨-, hraised | ⟨hhalted, hpc⟩⟩ := exec_pc_cases he
    · exact .inr hraised
    · exact .inl ⟨hhalted.trans hs, hpc, State.pc_lt_of_fetchInstr_ok hf⟩

theorem step_cfg {s t : State} (h : step s = .next t) : t.cfg = s.cfg := by
  rcases step_cases h with ⟨-, rfl⟩ | ⟨-, c, -, rfl⟩ | ⟨-, i, -, he⟩
  · rfl
  · rfl
  · obtain ⟨hcfg, -⟩ := exec_pc_cases he
    exact hcfg

theorem step_pc_le {s t : State} (h : step s = .next t) (hpc : s.pc ≤ s.cfg.memCells) : t.pc ≤ s.cfg.memCells := by
  rcases hs : s.halted with _ | _
  · rcases step_pc_cases hs h with ⟨-, ht, hlt⟩ | ⟨-, ht⟩ <;> omega
  · rw [step_of_halted hs] at h
    cases h
    exact hpc

/-- A step that begins at the end of memory halts the machine (R73). -/
theorem step_halts_of_le {s : State} (h : s.cfg.memCells ≤ s.pc) : ∃ u, step s = .next u ∧ u.halted = true := by
  rcases hs : s.halted with _ | _
  · exact ⟨_, step_of_error hs (State.fetchInstr_of_le h), rfl⟩
  · exact ⟨s, step_of_halted hs, hs⟩

/-! ### The block's operations -/

/-- A property that every block operation keeps holds after any sequence of them. -/
theorem State.performAll_keeps {P : State → Prop} (hop : ∀ s op, P s → P (s.perform op).2) (ops : List BlockOp)
    {s : State} (hs : P s) : P (s.performAll ops) := by
  induction ops generalizing s with
  | nil => exact hs
  | cons op ops ih => exact ih (hop s op hs)

theorem State.perform_cfg (s : State) (op : BlockOp) : (s.perform op).2.cfg = s.cfg := by
  cases op with
  | reset => rfl
  | load bytes =>
    rcases s.load_cases bytes with ⟨-, h⟩ | ⟨ws, -, -, -, h⟩ | ⟨ws, -, -, -, h⟩ <;>
      exact congrArg (fun r => r.2.cfg) h
  | step =>
    obtain ⟨t, ht⟩ := step_next s
    rw [State.perform_step ht]
    exact step_cfg ht
  | readCell a => rfl
  | snapshot => rfl

theorem State.perform_pc_le (s : State) (op : BlockOp) (hpc : s.pc ≤ s.cfg.memCells) :
    (s.perform op).2.pc ≤ s.cfg.memCells := by
  cases op with
  | reset => exact Nat.zero_le _
  | load bytes =>
    rcases s.load_cases bytes with ⟨-, h⟩ | ⟨ws, -, -, -, h⟩ | ⟨ws, -, -, -, h⟩ <;> simp only [State.perform, h]
    · exact hpc
    · exact hpc
    · exact Nat.zero_le _
  | step =>
    obtain ⟨t, ht⟩ := step_next s
    rw [State.perform_step ht]
    exact step_pc_le ht hpc
  | readCell a => exact hpc
  | snapshot => exact hpc

theorem State.performAll_cfg (s : State) (ops : List BlockOp) : (s.performAll ops).cfg = s.cfg :=
  State.performAll_keeps (P := fun t => t.cfg = s.cfg) (fun t op ht => (t.perform_cfg op).trans ht) ops rfl

theorem State.performAll_pc_le {s : State} (ops : List BlockOp) (hpc : s.pc ≤ s.cfg.memCells) :
    (s.performAll ops).pc ≤ s.cfg.memCells := by
  have hkeep : (s.performAll ops).pc ≤ (s.performAll ops).cfg.memCells :=
    State.performAll_keeps (P := fun t => t.pc ≤ t.cfg.memCells)
      (fun t op ht => (t.perform_cfg op).symm ▸ t.perform_pc_le op ht) ops hpc
  rwa [State.performAll_cfg] at hkeep

/-- Settles O24: the fetch by its cell, the step by `step_pc_cases`, and the range of `pc` by induction on the block's
operations. -/
theorem programCounterStaysInRange : Obligations.ProgramCounterStaysInRange := by
  refine ⟨fun s s' hs hs' hread => ?_, fun s t hrun hstep => ?_, rfl, fun c ops => ?_⟩
  · exact State.fetchInstr_congr
      ((State.readCell?_eq_some.mpr ⟨hs, hread⟩).trans (State.readCell?_eq_some.mpr ⟨hs', rfl⟩).symm)
  · rcases step_pc_cases hrun hstep with ⟨hhalted, hpc, hlt⟩ | hhalts
    · refine .inl ⟨hhalted, hpc, by omega, fun hend => ⟨by omega, step_halts_of_le ?_⟩⟩
      rw [step_cfg hstep, hend]
    · exact .inr hhalts
  · exact State.performAll_pc_le (s := State.powerOn c) ops (Nat.zero_le _)

end Sys2Proof.Machine
end

section
/-! SUPPORT. Memory accesses and the layout of memory after Load (spec 20_memory.md R42, R43): what a write leaves, that
fetch and LoadMem are reads, and which cells a successful Load fills. -/

namespace Sys2Proof.Machine

/-! ### Writing a cell -/

/-- A write sets the addressed cell and keeps every other cell and every register (R42). -/
theorem State.writeCell?_frame {s t : State} {a : Nat} {v : Int} (h : s.writeCell? a v = some t) :
    t.mem.read a = v ∧ (∀ b, b ≠ a → t.mem.read b = s.mem.read b) ∧
    t.acc = s.acc ∧ t.pc = s.pc ∧ t.halted = s.halted ∧ t.cause = s.cause ∧ t.cfg = s.cfg := by
  obtain ⟨-, rfl⟩ := State.writeCell?_eq_some.mp h
  exact ⟨Memory.read_write_same .., fun b hb => Memory.read_write_other _ _ b v hb, rfl, rfl, rfl, rfl, rfl⟩

/-- No cell is reserved: each of [0, N) can be written, and then holds what was written (R43). -/
theorem State.readCell?_after_writeCell? {s : State} {a : Nat} (v : Int) (h : a < s.cfg.memCells) :
    ∃ t, s.writeCell? a v = some t ∧ t.readCell? a = some v :=
  ⟨_, State.writeCell?_eq_some.mpr ⟨h, rfl⟩, State.readCell?_eq_some.mpr ⟨h, Memory.read_write_same ..⟩⟩

/-! ### Reading a cell -/

/-- A checked read depends on nothing but N and memory. -/
theorem State.readCell?_congr {s s' : State} (a : Nat) (hN : s.cfg.memCells = s'.cfg.memCells)
    (hmem : s.mem = s'.mem) : s.readCell? a = s'.readCell? a := by
  unfold State.readCell?
  rw [hN, hmem]

/-- LoadMem leaves memory and the parameters, whether it loads or raises (R89). -/
theorem exec_loadMem_keeps_mem {opd : OperandField} {s t : State} (h : exec (.loadMem opd) s = .next t) :
    t.mem = s.mem ∧ t.cfg = s.cfg := by
  rcases execLoadMem_cases h with ⟨-, rfl⟩ | ⟨-, rfl⟩
  · exact ⟨rfl, rfl⟩
  · exact ⟨rfl, rfl⟩

/-- The fetch of a cell that holds 0 meets the sentinel (R75). -/
theorem State.fetchInstr_of_zero {s : State} (hpc : s.pc < s.cfg.memCells) (h0 : s.mem.read s.pc = 0) :
    s.fetchInstr = .error .endSentinel := by
  simp only [State.fetchInstr, State.readCell?_eq_some.mpr ⟨hpc, h0⟩, if_true]

/-- Settles O38: the read operations by their frames; the second LoadMem is in bounds and finds the memory of the
first. -/
theorem readsHaveNoSideEffect : Obligations.ReadsHaveNoSideEffect := by
  refine ⟨fun s a => ⟨rfl, rfl⟩, fun s => ⟨rfl, rfl⟩, fun s i => step_of_ok, fun s c => step_of_error, ?_,
    fun opd s t => exec_loadMem_keeps_mem, ?_, fun s t a v => State.writeCell?_frame⟩
  · intro s s' hmem hpc hN
    apply State.fetchInstr_congr
    rw [← hpc]
    exact State.readCell?_congr s.pc hN hmem
  · intro opd s hlt
    have hfirst := exec_loadMem_of_lt (opd := opd) (s := s) hlt
    have hsecond := exec_loadMem_of_lt (opd := opd) (s := (s.setAcc (s.mem.read (cellAddress opd))).advance) hlt
    exact ⟨_, _, hfirst, rfl, hsecond, rfl⟩

/-! ### Memory after Load -/

@[simp] theorem State.loaded_cfg (s : State) (ws : List InsnWord) : (s.loaded ws).cfg = s.cfg := rfl
@[simp] theorem State.loaded_pc (s : State) (ws : List InsnWord) : (s.loaded ws).pc = 0 := rfl
@[simp] theorem State.loaded_mem (s : State) (ws : List InsnWord) :
    (s.loaded ws).mem = Memory.blank.writeWords 0 ws := rfl

/-- A Load that answers ok found a program of at most N records, and loaded it (R110). -/
theorem State.load_ok {s t : State} {bytes : List Byte} (h : s.load bytes = (.ok, t)) :
    ∃ ws, programWords bytes = some ws ∧ ws.length ≤ s.cfg.memCells ∧ t = s.loaded ws := by
  rcases s.load_cases bytes with ⟨-, hl⟩ | ⟨ws, -, -, -, hl⟩ | ⟨ws, hw, -, hlen, hl⟩
  · cases hl.symm.trans h
  · cases hl.symm.trans h
  · cases hl.symm.trans h
    exact ⟨ws, hw, hlen, rfl⟩

/-- Record `i` of a loaded program is in cell `i`. -/
theorem State.loaded_read_of_lt (s : State) {ws : List InsnWord} {i : Nat} (h : i < ws.length) :
    (s.loaded ws).mem.read i = ((ws.getD i 0#40).toNat : Int) := by
  simp [Memory.read_writeWords, h]

/-- A cell past a loaded program holds 0. -/
theorem State.loaded_read_of_le (s : State) {ws : List InsnWord} {i : Nat} (h : ws.length ≤ i) :
    (s.loaded ws).mem.read i = 0 := by
  simp [Memory.read_writeWords, Nat.not_lt.mpr h]

/-- Settles O46: the cells of a loaded program and those past it, and that every cell can be written. -/
theorem loadLaysOutTheAddressMap : Obligations.LoadLaysOutTheAddressMap := by
  refine ⟨fun s t bytes ws hws hload => ?_, fun s a v => State.readCell?_after_writeCell? v⟩
  obtain ⟨ws', hws', hlen, rfl⟩ := State.load_ok hload
  obtain rfl : ws = ws' := Option.some.inj (hws.symm.trans hws')
  refine ⟨s.loaded_pc ws, hlen, fun i => s.loaded_read_of_lt, fun u _ hmem hpast hpc => ?_⟩
  have hzero : u.mem.read u.pc = 0 := by
    rw [hmem]
    exact s.loaded_read_of_le hpast
  exact ⟨hzero, State.fetchInstr_of_zero hpc hzero⟩

end Sys2Proof.Machine
end

section
/-! SUPPORT. Operation codes, words and 5-byte records (spec 30_encoding.md R50 to R58, R67): which words decode and to
what, which bytes a program's records are, and what a step does with a fetched word. -/

namespace Sys2Proof

@[simp] theorem OperationKind.kind_instr (k : OperationKind) (opd : OperandField) : (k.instr opd).kind = k := by
  cases k <;> rfl

@[simp] theorem OperationKind.operand_instr (k : OperationKind) (opd : OperandField) :
    (k.instr opd).operand = opd := by
  cases k <;> rfl

/-! ### Operation codes -/

theorem operationOfCode_eq_some {opc : Opcode} {k : OperationKind} :
    operationOfCode opc = some k ↔ opc = operationCode k := by
  refine ⟨fun h => ?_, fun h => h ▸ Machine.operationOfCode_operationCode k⟩
  unfold operationOfCode at h
  split_ifs at h <;> cases h <;> assumption

/-- Of the numbers a code can be, the four of R55 are the codes of the operations. -/
theorem exists_operationCode_iff {n : Nat} :
    (∃ k, n = (operationCode k).toNat) ↔ n = 58 ∨ n = 19 ∨ n = 24 ∨ n = 7 := by
  constructor
  · rintro ⟨k, rfl⟩
    cases k <;> decide
  · rintro (h | h | h | h)
    exacts [⟨.loadConst, h⟩, ⟨.loadMem, h⟩, ⟨.storeMem, h⟩, ⟨.abs, h⟩]

/-- The other 60 codes are those of no operation (R58). -/
theorem ne_operationCode_of_undefined {n : Nat} (h58 : n ≠ 58) (h19 : n ≠ 19) (h24 : n ≠ 24) (h7 : n ≠ 7)
    (k : OperationKind) : n ≠ (operationCode k).toNat := by
  intro h
  have := exists_operationCode_iff.mp ⟨k, h⟩
  omega

/-- The operation of a word is the one whose code its low six bits are (R55). -/
theorem operationOfCode_word_eq_some {w : InsnWord} {k : OperationKind} :
    operationOfCode (decodeFields w).1 = some k ↔ w.toNat % 64 = (operationCode k).toNat := by
  rw [operationOfCode_eq_some, ← BitVec.toNat_inj, decodeFields_opc_toNat, show 2 ^ 6 = 64 from rfl]

theorem operationOfCode_word_eq_none {w : InsnWord} :
    operationOfCode (decodeFields w).1 = none ↔ ∀ k, w.toNat % 64 ≠ (operationCode k).toNat := by
  simp only [Option.eq_none_iff_forall_ne_some, ne_eq, operationOfCode_word_eq_some]

/-! ### Decoding a word -/

theorem decode_of_code {w : InsnWord} {k : OperationKind} (h : w.toNat % 64 = (operationCode k).toNat) :
    decode w = .ok (k.instr (decodeFields w).2) := by
  simp only [decode, operationOfCode_word_eq_some.mpr h]

theorem decode_of_undefined {w : InsnWord} (h : ∀ k, w.toNat % 64 ≠ (operationCode k).toNat) :
    decode w = .error (.unknownOpcode (decodeFields w).1) := by
  simp only [decode, operationOfCode_word_eq_none.mpr h]

/-- A word is put together again from its two fields (R51, R52). -/
@[simp] theorem encodeFields_decodeFields (w : InsnWord) :
    encodeFields (decodeFields w).1 (decodeFields w).2 = w := by
  apply BitVec.eq_of_toNat_eq
  rw [encodeFields_toNat, decodeFields_opc_toNat, decodeFields_opd_toNat]
  omega

/-- A word that decodes to an instruction is that instruction's word. -/
theorem encode_of_decode {w : InsnWord} {i : Instr} (h : decode w = .ok i) : encode i = w := by
  unfold decode at h
  split at h
  · rename_i k hk
    cases h
    rw [encode, OperationKind.kind_instr, OperationKind.operand_instr, ← operationOfCode_eq_some.mp hk,
      encodeFields_decodeFields]
  · cases h

/-! ### Records -/

/-- The record of the word of five bytes is those bytes (R50). -/
@[simp] theorem wordRecord_recordWord (b0 b1 b2 b3 b4 : Byte) :
    wordRecord (recordWord b0 b1 b2 b3 b4) = [b0, b1, b2, b3, b4] := by
  have h0 := b0.isLt
  have h1 := b1.isLt
  have h2 := b2.isLt
  have h3 := b3.isLt
  have h4 := b4.isLt
  simp only [wordRecord, List.cons.injEq, and_true, ← BitVec.toNat_inj, wordByte_toNat, recordWord_toNat]
  omega

@[simp] theorem encodeBytes_length (i : Instr) : (encodeBytes i).length = 5 := rfl

/-- Bytes that decode begin with the record of the instruction they decode to. -/
theorem eq_append_of_decodeBytes {bytes rest : List Byte} {i : Instr} (h : decodeBytes bytes = .ok (i, rest)) :
    bytes = encodeBytes i ++ rest := by
  unfold decodeBytes at h
  split at h
  · split at h
    · rename_i hdecode
      cases h
      simp [encodeBytes, encode_of_decode hdecode]
    · cases h
  · cases h

/-- Byte `k` of record `i` is at `5 i + k` (R67). -/
theorem getD_flatMap_wordRecord {ws : List InsnWord} {i k : Nat} (hi : i < ws.length) (hk : k < 5) :
    (ws.flatMap wordRecord).getD (5 * i + k) 0#8 = wordByte (ws.getD i 0#40) k := by
  induction ws generalizing i with
  | nil => cases hi
  | cons w ws ih =>
    rw [List.flatMap_cons]
    cases i with
    | zero =>
      rw [List.getD_append _ _ _ _ (by simpa using hk)]
      interval_cases k <;> rfl
    | succ i =>
      rw [List.getD_append_right _ _ _ _ (by rw [wordRecord_length]; omega), List.getD_cons_succ, wordRecord_length,
        show 5 * (i + 1) + k - 5 = 5 * i + k by omega]
      exact ih (by simpa using hi)

end Sys2Proof

namespace Sys2Proof.Machine

/-! ### Programs -/

/-- The words of a program are `ws` exactly when its bytes are the records of `ws` (R67). -/
theorem programWords_eq_some {bytes : List Byte} {ws : List InsnWord} :
    programWords bytes = some ws ↔ bytes = ws.flatMap wordRecord := by
  refine ⟨fun h => ?_, fun h => h ▸ programWords_flatMap ws⟩
  fun_induction programWords bytes generalizing ws with
  | case1 => cases h; rfl
  | case2 b0 b1 b2 b3 b4 rest ws' hrest ih => cases h; simpa using ih hrest
  | case3 => cases h
  | case4 => cases h

theorem programWords_eq_none {bytes : List Byte} : programWords bytes = none ↔ bytes.length % 5 ≠ 0 := by
  rcases programWords_cases bytes with ⟨hlen, hnone⟩ | ⟨ws, hsome, hlen⟩
  · exact iff_of_true hnone hlen
  · rw [hsome]
    exact iff_of_false nofun (by omega)

theorem length_of_programWords {bytes : List Byte} {ws : List InsnWord} (h : programWords bytes = some ws) :
    bytes.length = 5 * ws.length := by
  rcases programWords_cases bytes with ⟨-, hnone⟩ | ⟨ws', hsome, hlen⟩
  · cases h.symm.trans hnone
  · cases h.symm.trans hsome
    exact hlen

/-- Word `i` of a program is that of bytes `[5i, 5i+4]` (R67). -/
theorem getD_of_programWords {bytes : List Byte} {ws : List InsnWord} {i : Nat} (h : programWords bytes = some ws)
    (hi : i < ws.length) :
    ws.getD i 0#40 = recordWord (bytes.getD (5 * i) 0#8) (bytes.getD (5 * i + 1) 0#8) (bytes.getD (5 * i + 2) 0#8)
      (bytes.getD (5 * i + 3) 0#8) (bytes.getD (5 * i + 4) 0#8) := by
  have hbyte : ∀ k < 5, bytes.getD (5 * i + k) 0#8 = wordByte (ws.getD i 0#40) k := fun k hk => by
    rw [programWords_eq_some.mp h, getD_flatMap_wordRecord hi hk]
  rw [hbyte 1 (by decide), hbyte 2 (by decide), hbyte 3 (by decide), hbyte 4 (by decide),
    show 5 * i = 5 * i + 0 from rfl, hbyte 0 (by decide), recordWord_wordByte]

/-- The program of one instruction's record. -/
theorem programWords_encodeBytes (i : Instr) : programWords (encodeBytes i) = some [encode i] :=
  programWords_flatMap [encode i]

/-- A program of at most N records loads (R110). -/
theorem State.load_of_programWords {s : State} {bytes : List Byte} {ws : List InsnWord}
    (h : programWords bytes = some ws) (hfits : ws.length ≤ s.cfg.memCells) : s.load bytes = (.ok, s.loaded ws) := by
  simp only [State.load, h, if_neg (Nat.not_lt.mpr hfits)]

/-- Settles O9: `recordWord_toNat`, the bytes a decode consumes, and the load of a single record. -/
theorem recordIsALittleEndianWord : Obligations.RecordIsALittleEndianWord := by
  refine ⟨recordWord_toNat, encodeBytes_length, fun bytes rest i => eq_append_of_decodeBytes, fun s i hN => ?_⟩
  have hload := State.load_of_programWords (s := s) (programWords_encodeBytes i) hN
  exact ⟨_, hload, s.loaded_read_of_lt Nat.zero_lt_one,
    fun a ha => s.loaded_read_of_le (Nat.one_le_iff_ne_zero.mpr ha)⟩

/-- Settles O44: a program's bytes are the records of its words, byte by byte. -/
theorem binaryProgramIsASequenceOfRecords : Obligations.BinaryProgramIsASequenceOfRecords := by
  refine ⟨fun bytes => programWords_eq_none, fun bytes ws hws => ⟨?_, programWords_eq_some.mp hws, fun i => ?_⟩⟩
  · rw [length_of_programWords hws, Nat.mul_div_cancel_left _ (by decide)]
  · exact getD_of_programWords hws

/-! ### The step on a fetched word -/

/-- The fetch of a word that decodes answers its instruction; word 0 has no defined code (R58). -/
theorem State.fetchInstr_of_decode {s : State} {w : InsnWord} {i : Instr} (hpc : s.pc < s.cfg.memCells)
    (hread : s.mem.read s.pc = (w.toNat : Int)) (hdecode : decode w = .ok i) : s.fetchInstr = .ok i := by
  have hnonzero : (w.toNat : Int) ≠ 0 := by
    intro h0
    have hw : w = 0#40 := BitVec.eq_of_toNat_eq (by simpa using h0)
    rw [hw] at hdecode
    cases hdecode
  simp only [State.fetchInstr, State.readCell?_eq_some.mpr ⟨hpc, hread⟩, if_neg hnonzero,
    wordOfCell_eq_some.mpr rfl, hdecode]

theorem State.fetchInstr_of_undefined {s : State} {w : InsnWord} (hpc : s.pc < s.cfg.memCells)
    (hread : s.mem.read s.pc = (w.toNat : Int)) (hnonzero : w.toNat ≠ 0)
    (h : ∀ k, w.toNat % 64 ≠ (operationCode k).toNat) : s.fetchInstr = .error .unknownOpcode := by
  simp only [State.fetchInstr, State.readCell?_eq_some.mpr ⟨hpc, hread⟩, if_neg (Int.natCast_ne_zero.mpr hnonzero),
    wordOfCell_eq_some.mpr rfl, decode_of_undefined h]

/-- A fetched word with an illegal code halts the machine, and changes `halted` and `cause` only (R58, R95). -/
theorem step_of_undefined {s : State} {w : InsnWord} (hrun : s.halted = false) (hpc : s.pc < s.cfg.memCells)
    (hread : s.mem.read s.pc = (w.toNat : Int)) (hnonzero : w.toNat ≠ 0)
    (h : ∀ k, w.toNat % 64 ≠ (operationCode k).toNat) :
    step s = .next { s with halted := true, cause := .unknownOpcode } :=
  step_of_error hrun (State.fetchInstr_of_undefined hpc hread hnonzero h)

/-- Settles O12: the fetch of the sentinel, of an undefined code and of a defined one; a code of 0 is undefined. -/
theorem illegalOpcodesHaltTheMachine : Obligations.IllegalOpcodesHaltTheMachine := by
  refine ⟨fun s w hrun hpc hread => ⟨fun h0 => ?_, fun hnonzero h58 h19 h24 h7 => ?_, fun hcode => ?_⟩,
    fun s w hrun hpc hread hcode hopd => ?_⟩
  · exact step_of_error hrun (State.fetchInstr_of_zero hpc (by rw [hread, h0]; rfl))
  · exact step_of_undefined hrun hpc hread hnonzero (ne_operationCode_of_undefined h58 h19 h24 h7)
  · obtain ⟨k, hk⟩ := exists_operationCode_iff.mpr hcode
    have hdecode := decode_of_code hk
    exact ⟨_, hdecode, step_of_ok hrun (State.fetchInstr_of_decode hpc hread hdecode)⟩
  · have hnonzero : w.toNat ≠ 0 := fun h => hopd (by rw [h])
    exact step_of_undefined hrun hpc hread hnonzero
      (ne_operationCode_of_undefined (by omega) (by omega) (by omega) (by omega))

end Sys2Proof.Machine
end

section
/-! SUPPORT. The toolchain contract (spec 30_encoding.md R61 to R68): validation of one record and of a sequence of
them, assembly, and the disassembly of a record. -/

namespace Sys2Proof.Machine

/-! ### Validation of a record -/

theorem TextOperation.kind?_eq_some {operation : TextOperation} {k : OperationKind} :
    operation.kind? = some k ↔ operation = .name (mnemonic k) := by
  cases operation with
  | name text => simp [TextOperation.kind?, operationNamed_eq_some]
  | notText => simp [TextOperation.kind?]

theorem TextOperation.kind?_eq_none {operation : TextOperation} :
    operation.kind? = none ↔ ∀ k, operation ≠ .name (mnemonic k) := by
  simp only [Option.eq_none_iff_forall_ne_some, ne_eq, TextOperation.kind?_eq_some]

theorem validate_of_unknownOperation {operation : TextOperation} (operand : TextOperand)
    (h : ∀ k, operation ≠ .name (mnemonic k)) :
    validate (.ofFields operation operand) = .error .unknownOperation := by
  simp only [validate_ofFields, validateFields, TextOperation.kind?_eq_none.mpr h]

theorem validate_of_notInteger (k : OperationKind) :
    validate (.ofFields (.name (mnemonic k)) .notInteger) = .error .typeErrorKind := by
  simp only [validate_ofFields, validateFields, TextOperation.kind?_eq_some.mpr rfl]

theorem operandInRange_loadConst {v : Int} : operandInRange .loadConst v = true ↔ -65536 ≤ v ∧ v ≤ 131071 := by
  simp [operandInRange]

theorem operandInRange_address {k : OperationKind} {v : Int} (hk : k ≠ .loadConst) :
    operandInRange k v = true ↔ 0 ≤ v ∧ v ≤ 0x7FFFFFFF := by
  cases k with
  | loadConst => exact absurd rfl hk
  | loadMem => simp [operandInRange]
  | storeMem => simp [operandInRange]
  | abs => simp [operandInRange]

theorem normalizedOperand_address {k : OperationKind} (v : Int) (hk : k ≠ .loadConst) : normalizedOperand k v = v := by
  cases k with
  | loadConst => exact absurd rfl hk
  | loadMem => rfl
  | storeMem => rfl
  | abs => rfl

/-- The operand a toolchain puts into a LoadConst: the fold, within 17 bits (R64). -/
theorem normalizedOperand_loadConst_bounds {v : Int} (h : operandInRange .loadConst v = true) :
    0 ≤ normalizedOperand .loadConst v ∧ normalizedOperand .loadConst v ≤ 131071 := by
  rw [operandInRange_loadConst] at h
  simp only [normalizedOperand, fold17]
  split <;> omega

/-- The operand a toolchain puts into the operations with an address (R65). -/
theorem normalizedOperand_address_bounds {k : OperationKind} {v : Int} (hk : k ≠ .loadConst)
    (h : operandInRange k v = true) : 0 ≤ normalizedOperand k v ∧ normalizedOperand k v ≤ 0x7FFFFFFF := by
  rw [normalizedOperand_address v hk]
  exact (operandInRange_address hk).mp h

/-- No normalized operand overflows its field. -/
theorem operandField_normalizedOperand {k : OperationKind} {v : Int} (h : operandInRange k v = true) :
    ((BitVec.ofInt 34 (normalizedOperand k v)).toNat : Int) = normalizedOperand k v := by
  by_cases hk : k = .loadConst
  · subst hk
    obtain ⟨hlow, hhigh⟩ := normalizedOperand_loadConst_bounds h
    exact operandField_ofInt_toNat hlow (by omega)
  · obtain ⟨hlow, hhigh⟩ := normalizedOperand_address_bounds hk h
    exact operandField_ofInt_toNat hlow (by omega)

/-- A record with an operand in range is accepted, and its instruction carries the normalized operand. -/
theorem validate_of_inRange {k : OperationKind} {v : Int} (h : operandInRange k v = true) :
    ∃ opd : OperandField, validate (textRecord k v) = .ok (k.instr opd) ∧ (opd.toNat : Int) = normalizedOperand k v :=
  ⟨_, by rw [validate_textRecord, if_pos h], operandField_normalizedOperand h⟩

theorem validate_of_not_inRange {k : OperationKind} {v : Int} (h : ¬ operandInRange k v = true) :
    validate (textRecord k v) = .error .operandOutOfRange := by
  rw [validate_textRecord, if_neg h]

/-- Settles O53: the range of LoadConst, and its fold. -/
theorem loadConstOperandIsFolded : Obligations.LoadConstOperandIsFolded := by
  refine fun v => ⟨fun hrange => ?_, fun hout => validate_of_not_inRange ?_⟩
  · have hin := operandInRange_loadConst.mpr hrange
    obtain ⟨opd, hvalid, hopd⟩ := validate_of_inRange hin
    have hbound := (normalizedOperand_loadConst_bounds hin).2
    exact ⟨opd, hvalid, hopd, by omega⟩
  · rw [operandInRange_loadConst]
    omega

/-- Settles O54: the range of the three operations with an address. -/
theorem addressOperandRange : Obligations.AddressOperandRange := by
  refine fun k v hk => ⟨fun hrange => ?_, fun hout => validate_of_not_inRange ?_⟩
  · obtain ⟨opd, hvalid, hopd⟩ := validate_of_inRange ((operandInRange_address hk).mpr hrange)
    rw [normalizedOperand_address v hk] at hopd
    exact ⟨opd, hvalid, hopd, by omega⟩
  · rw [operandInRange_address hk]
    omega

/-! ### Validation of a sequence, and assembly -/

/-- A sequence is accepted exactly when each of its records is, and gives their instructions in order. -/
theorem validateAll_eq_ok {rs : List TextRecord} {is : List Instr} :
    validateAll rs = .ok is ↔ List.Forall₂ (fun r i => validate r = .ok i) rs is := by
  induction rs generalizing is with
  | nil => simp [validateAll, eq_comm]
  | cons r rs ih =>
    simp only [List.forall₂_cons_left_iff, ← ih, validateAll]
    rcases validate r with e | i
    · simp
    · rcases validateAll rs with e | is'
      · simp
      · simp [eq_comm]

/-- The first record that fails decides (R63). -/
theorem validateAll_of_first_error {rs : List TextRecord} {is : List Instr} {r : TextRecord} {e : AsmError}
    (rest : List TextRecord) (hok : validateAll rs = .ok is) (herr : validate r = .error e) :
    validateAll (rs ++ r :: rest) = .error e := by
  rw [validateAll_eq_ok] at hok
  induction hok with
  | nil => simp [validateAll, herr]
  | cons hhead _ ih => simp [validateAll, hhead, ih]

theorem assemble_of_error {rs : List TextRecord} {e : AsmError} (h : validateAll rs = .error e) :
    assemble rs = .error e := by
  simp only [assemble, h]

/-- Assembly succeeds exactly on accepted sequences, and concatenates the records of their instructions (R66). -/
theorem assemble_eq_ok {rs : List TextRecord} {bytes : List Byte} :
    assemble rs = .ok bytes ↔ ∃ is, validateAll rs = .ok is ∧ bytes = is.flatMap encodeBytes := by
  rcases h : validateAll rs with e | is <;> simp [assemble, h, eq_comm]

/-- No record of an accepted sequence is dropped (R66). -/
theorem validate_of_mem {rs : List TextRecord} {is : List Instr} {r : TextRecord} (hok : validateAll rs = .ok is)
    (hmem : r ∈ rs) : ∃ i ∈ is, validate r = .ok i := by
  rw [validateAll_eq_ok] at hok
  induction hok with
  | nil => cases hmem
  | cons hhead _ ih =>
    rcases List.mem_cons.mp hmem with rfl | htail
    · exact ⟨_, List.mem_cons_self, hhead⟩
    · obtain ⟨i, hi, hvalid⟩ := ih htail
      exact ⟨i, List.mem_cons_of_mem _ hi, hvalid⟩

/-- A record that fails, wherever it stands, fails the assembly (R66). -/
theorem assemble_error_of_mem {rs : List TextRecord} {r : TextRecord} {e : AsmError} (hmem : r ∈ rs)
    (herr : validate r = .error e) : ∃ e', assemble rs = .error e' := by
  rcases hall : validateAll rs with e' | is
  · exact ⟨e', assemble_of_error hall⟩
  · obtain ⟨i, -, hvalid⟩ := validate_of_mem hall hmem
    cases herr.symm.trans hvalid

/-- The program of a sequence of instructions has their words. -/
theorem programWords_flatMap_encodeBytes (is : List Instr) :
    programWords (is.flatMap encodeBytes) = some (is.map encode) := by
  rw [flatMap_encodeBytes, programWords_flatMap]

theorem flatMap_encodeBytes_length (is : List Instr) : (is.flatMap encodeBytes).length = 5 * is.length := by
  rw [length_of_programWords (programWords_flatMap_encodeBytes is), List.length_map]

/-- Settles O52: the operation is looked up before the operand is, and the first failing record decides. -/
theorem validationFailsFast : Obligations.ValidationFailsFast := by
  refine ⟨fun operation operand => validate_of_unknownOperation operand, validate_of_notInteger,
    fun rs rest is r e hok herr => ?_⟩
  have hfirst := validateAll_of_first_error rest hok herr
  exact ⟨hfirst, assemble_of_error hfirst⟩

/-- Settles O55: `assemble_eq_ok` in both directions, and `assemble_error_of_mem`. -/
theorem assemblyConcatenatesInOrder : Obligations.AssemblyConcatenatesInOrder := by
  refine ⟨fun rs is hvalid => ?_, fun rs bytes hok => ?_, ?_⟩
  · exact assemble_eq_ok.mpr ⟨is, validateAll_eq_ok.mpr hvalid, rfl⟩
  · obtain ⟨is, hall, rfl⟩ := assemble_eq_ok.mp hok
    have hvalid := validateAll_eq_ok.mp hall
    refine ⟨is, hvalid, rfl, ?_, programWords_flatMap_encodeBytes is⟩
    rw [flatMap_encodeBytes_length, hvalid.length_eq]
  · rintro rs ⟨r, hmem, e, herr⟩
    exact assemble_error_of_mem hmem herr

/-! ### Disassembly -/

/-- The operand field of a word, as the number of its upper 34 bits. -/
theorem decodeFields_opd (w : InsnWord) : (decodeFields w).2 = BitVec.ofNat 34 (w.toNat / 64) := by
  have hopd : (decodeFields w).2.toNat = w.toNat / 64 := decodeFields_opd_toNat w
  rw [← hopd, BitVec.ofNat_toNat, BitVec.setWidth_eq]

theorem nameOfCode_of_code {w : InsnWord} {k : OperationKind} (h : w.toNat % 64 = (operationCode k).toNat) :
    nameOfCode (decodeFields w).1 = .known k := by
  simp only [nameOfCode, operationOfCode_word_eq_some.mpr h]

theorem nameOfCode_of_undefined {w : InsnWord} (h : ∀ k, w.toNat % 64 ≠ (operationCode k).toNat) :
    nameOfCode (decodeFields w).1 = .unknownOperation := by
  simp only [nameOfCode, operationOfCode_word_eq_none.mpr h]

/-- The operand of code 58 is read through `sext_17` (R68). -/
theorem disassembledOperand_of_58 {w : InsnWord} (h : w.toNat % 64 = 58) :
    disassembledOperand (decodeFields w).1 (decodeFields w).2 = sext17 (BitVec.ofNat 34 (w.toNat / 64)) := by
  have hopc : (decodeFields w).1 = 58#6 := BitVec.eq_of_toNat_eq ((decodeFields_opc_toNat w).trans h)
  rw [disassembledOperand, if_pos hopc, decodeFields_opd]

/-- The operand of any other code is given unchanged (R68). -/
theorem disassembledOperand_of_ne_58 {w : InsnWord} (h : w.toNat % 64 ≠ 58) :
    disassembledOperand (decodeFields w).1 (decodeFields w).2 = ((w.toNat / 64 : Nat) : Int) := by
  have hopc : (decodeFields w).1 ≠ 58#6 := fun hc => h (by simpa [hc] using (decodeFields_opc_toNat w).symm)
  rw [disassembledOperand, if_neg hopc, decodeFields_opd_toNat, show 2 ^ 6 = 64 from rfl]

/-- The disassembly of a record of one of the operations with an address. -/
theorem disassembleWord_of_address {w : InsnWord} {k : OperationKind} (hk : k ≠ .loadConst)
    (h : w.toNat % 64 = (operationCode k).toNat) :
    disassembleWord w = (.known k, ((w.toNat / 64 : Nat) : Int)) := by
  have hne : w.toNat % 64 ≠ 58 := by
    rw [h]
    cases k with
    | loadConst => exact absurd rfl hk
    | loadMem => decide
    | storeMem => decide
    | abs => decide
  rw [disassembleWord, nameOfCode_of_code h, disassembledOperand_of_ne_58 hne]

/-- Settles O56: the name by the table of codes, the operand by whether the code is 58. -/
theorem disassemblySignExtendsOnlyLoadConst : Obligations.DisassemblySignExtendsOnlyLoadConst := by
  rintro b0 b1 b2 b3 b4 w rfl
  refine ⟨fun h => ?_, fun h => ?_, fun h => ?_, fun h => ?_, fun h58 h19 h24 h7 => ?_⟩
  · rw [disassemble, disassembleWord, nameOfCode_of_code (k := .loadConst) h, disassembledOperand_of_58 h]
  · rw [disassemble, disassembleWord_of_address (k := .loadMem) nofun h]
  · rw [disassemble, disassembleWord_of_address (k := .storeMem) nofun h]
  · rw [disassemble, disassembleWord_of_address (k := .abs) nofun h]
  · rw [disassemble, disassembleWord, nameOfCode_of_undefined (ne_operationCode_of_undefined h58 h19 h24 h7),
      disassembledOperand_of_ne_58 h58]

end Sys2Proof.Machine
end

section
/-! SUPPORT. The sequencer (spec 40_sequencer.md R73, R75, R79, R80): how an instruction ends, what a step reports, and
the datapath each operation code is sent to. -/

namespace Sys2Proof.Machine

/-! ### How an instruction ends -/

/-- The two ends of an instruction, with the rows of R80's table. One that raises has an address out of bounds and has
written the accumulator at most; one that completes advances `pc` and has written the accumulator and the addressed
cell at most. -/
theorem exec_cases {i : Instr} {s t : State} (h : exec i s = .next t) :
    (i.kind ≠ .loadConst ∧ s.cfg.memCells ≤ i.operand.toNat ∧
      ∃ v, t = (s.setAcc v).raise .outOfBoundsAccess ∧ (i.kind = .storeMem → v = s.acc)) ∨
    ((i.kind = .loadConst ∨ i.operand.toNat < s.cfg.memCells) ∧
      ∃ v m, t = State.advance { s with acc := v, mem := m } ∧ (i.kind = .storeMem → v = s.acc) ∧
        (i.kind = .loadConst ∨ i.kind = .loadMem → m = s.mem) ∧
        ∀ a, a ≠ i.operand.toNat → m.read a = s.mem.read a) := by
  cases i with
  | loadConst opd => exact .inr ⟨.inl rfl, _, _, execLoadConst_cases h, nofun, fun _ => rfl, fun _ _ => rfl⟩
  | loadMem opd =>
    rcases execLoadMem_cases h with ⟨hout, ht⟩ | ⟨hin, ht⟩
    · exact .inl ⟨nofun, hout, s.acc, ht, nofun⟩
    · exact .inr ⟨.inr hin, _, _, ht, nofun, fun _ => rfl, fun _ _ => rfl⟩
  | storeMem opd =>
    rcases execStoreMem_cases h with ⟨hout, ht⟩ | ⟨hin, ht⟩
    · exact .inl ⟨nofun, hout, s.acc, ht, fun _ => rfl⟩
    · exact .inr ⟨.inr hin, _, _, ht, fun _ => rfl, nofun, fun a ha => Memory.read_write_other _ _ a _ ha⟩
  | abs opd =>
    rcases execAbs_cases h with ⟨hout, ht⟩ | ⟨hin, ht⟩
    · exact .inl ⟨nofun, hout, _, ht, nofun⟩
    · exact .inr ⟨.inr hin, _, _, ht, nofun, nofun, fun a ha => Memory.read_write_other _ _ a _ ha⟩

/-- LoadConst, and any instruction with its address in bounds, completes: it does not raise (R79). -/
theorem exec_completes {i : Instr} {s : State} (h : i.kind = .loadConst ∨ i.operand.toNat < s.cfg.memCells) :
    ∃ t, exec i s = .next t ∧ t.pc = s.pc + 1 ∧ t.halted = s.halted ∧ t.cause = s.cause := by
  obtain ⟨t, ht⟩ := exec_next i s
  rcases exec_cases ht with ⟨hkind, hout, -⟩ | ⟨-, v, m, rfl, -⟩
  · rcases h with hconst | hin
    · exact absurd hconst hkind
    · omega
  · exact ⟨_, ht, rfl, rfl, rfl⟩

/-- No instruction raises anything but OUT_OF_BOUNDS_ACCESS (R80, R94). -/
theorem exec_cause {i : Instr} {s t : State} (h : exec i s = .next t) :
    t.cause = s.cause ∨ t.cause = .outOfBoundsAccess := by
  rcases exec_cases h with ⟨-, -, v, rfl, -⟩ | ⟨-, v, m, rfl, -⟩
  · exact .inr rfl
  · exact .inl rfl

/-! ### What a step reports -/

theorem State.report_of_halted {s : State} (h : s.halted = true) : s.report = .halted := by
  simp only [State.report, h, if_true]

theorem State.report_of_running {s : State} (h : s.halted = false) : s.report = .stepped := by
  simp [State.report, h]

/-- A fetch that finds a cause ends the run with it: the step reports HALTED and changes nothing else (R72). -/
theorem State.step_and_perform_of_error {s : State} {c : Cause} (hrun : s.halted = false)
    (hfetch : s.fetchInstr = .error c) :
    step s = .next { s with halted := true, cause := c } ∧
    s.perform .step = (.stepped .halted, { s with halted := true, cause := c }) := by
  have hstep := step_of_error hrun hfetch
  have hperform := State.perform_step hstep
  rw [State.report_of_halted (s.raise_halted c)] at hperform
  exact ⟨hstep, hperform⟩

/-- A step takes its cause from the fetch, unless it is the old one or OUT_OF_BOUNDS_ACCESS. -/
theorem fetchInstr_of_step_cause {s t : State} (hstep : step s = .next t) (hnew : t.cause ≠ s.cause)
    (hfetched : t.cause ≠ .outOfBoundsAccess) : s.fetchInstr = .error t.cause := by
  rcases step_cases hstep with ⟨-, rfl⟩ | ⟨-, c, hfetch, rfl⟩ | ⟨-, i, -, hexec⟩
  · exact absurd rfl hnew
  · exact hfetch
  · rcases exec_cause hexec with hold | hbounds
    · exact absurd hold hnew
    · exact absurd hbounds hfetched

/-- A fetch meets the sentinel only in a cell of memory that holds 0 (R75). -/
theorem State.read_of_fetchInstr_endSentinel {s : State} (h : s.fetchInstr = .error .endSentinel) :
    s.pc < s.cfg.memCells ∧ s.mem.read s.pc = 0 := by
  rcases s.fetchInstr_cases with
    ⟨-, hf⟩ | ⟨hpc, hzero, -⟩ | ⟨-, -, hf⟩ | ⟨w, -, -, -, -, hf⟩ | ⟨w, i, -, -, -, -, hf⟩
  · cases hf.symm.trans h
  · exact ⟨hpc, hzero⟩
  · cases hf.symm.trans h
  · cases hf.symm.trans h
  · cases hf.symm.trans h

/-- Settles O17: `exec_completes` at the fetched instruction, whose cell bounds `pc`. -/
theorem completedStepAdvancesThePc : Obligations.CompletedStepAdvancesThePc := by
  intro s i hrun hcause hfetch hnoRaise
  obtain ⟨t, hexec, hpc, hhalted, hsame⟩ := exec_completes hnoRaise
  have hstep : step s = .next t := (step_of_ok hrun hfetch).trans hexec
  have hrunning : t.halted = false := hhalted.trans hrun
  have hperform := State.perform_step hstep
  rw [State.report_of_running hrunning] at hperform
  exact ⟨t, hstep, hperform, hpc, hrunning, hsame.trans hcause, hpc ▸ State.pc_lt_of_fetchInstr_ok hfetch⟩

/-- Settles O18: the fetch finds the end of memory, and a step that moves `pc` completes. -/
theorem endOfMemoryHalts : Obligations.EndOfMemoryHalts := by
  refine ⟨fun s hrun hend => State.step_and_perform_of_error hrun (State.fetchInstr_of_le hend),
    fun s t hrun hpc hstep hend => ?_⟩
  rcases step_pc_cases hrun hstep with ⟨hrunning, hnext, -⟩ | ⟨-, hsame⟩
  · exact ⟨by omega, hrunning⟩
  · omega

/-- Settles O19: the fetch of a 0 finds the sentinel, and only the fetch of a 0 does. -/
theorem sentinelWordHalts : Obligations.SentinelWordHalts := by
  refine ⟨fun s hrun hpc hzero => State.step_and_perform_of_error hrun (State.fetchInstr_of_zero hpc hzero),
    fun s t _ hold hstep hcause => State.read_of_fetchInstr_endSentinel ?_⟩
  rw [← hcause]
  exact fetchInstr_of_step_cause hstep (fun hsame => hold (hsame.symm.trans hcause)) (by rw [hcause]; decide)

/-! ### Dispatch -/

/-- Dispatch (R80): a fetched word goes to the datapath of its code, with its operand field. -/
theorem step_of_code {s : State} {w : InsnWord} {k : OperationKind} (hrun : s.halted = false)
    (hpc : s.pc < s.cfg.memCells) (hread : s.mem.read s.pc = (w.toNat : Int))
    (hcode : (decodeFields w).1 = operationCode k) : step s = exec (k.instr (decodeFields w).2) s := by
  have hdecode := decode_of_code (operationOfCode_word_eq_some.mp (operationOfCode_eq_some.mpr hcode))
  exact step_of_ok hrun (State.fetchInstr_of_decode hpc hread hdecode)

/-- Words with one code decode to one operation, if they decode (R55). -/
theorem decode_kind_of_same_code {w w' : InsnWord} {i : Instr} (hcode : (decodeFields w).1 = (decodeFields w').1)
    (h : decode w = .ok i) : ∃ i', decode w' = .ok i' ∧ i'.kind = i.kind := by
  obtain ⟨hopc, -⟩ := Laws.EncodedFields.of_kind i
  have hsame : w'.toNat % 64 = (operationCode i.kind).toNat := by
    rw [← hopc, encode_of_decode h, ← decodeFields_opc_toNat, hcode, decodeFields_opc_toNat,
      show 2 ^ 6 = 64 from rfl]
  exact ⟨_, decode_of_code hsame, OperationKind.kind_instr ..⟩

/-- A code that is none of the four selects no operation (R58). -/
theorem operationOfCode_of_ne {opc : Opcode} (h58 : opc ≠ 58#6) (h19 : opc ≠ 19#6) (h24 : opc ≠ 24#6)
    (h7 : opc ≠ 7#6) : operationOfCode opc = none := by
  simp only [operationOfCode, if_neg h58, if_neg h19, if_neg h24, if_neg h7]

/-! ### What the datapaths read and write -/

/-- The frame of the four operations, as the table of R80 gives it. -/
theorem exec_frame {i : Instr} {s t : State} (h : exec i s = .next t) :
    t.cfg = s.cfg ∧ (t.pc = s.pc ∨ t.pc = s.pc + 1) ∧
    ((t.halted = s.halted ∧ t.cause = s.cause) ∨
      (i.kind ≠ .loadConst ∧ t.halted = true ∧ t.cause = .outOfBoundsAccess)) ∧
    (i.kind = .storeMem → t.acc = s.acc) ∧
    (i.kind = .loadConst ∨ i.kind = .loadMem → t.mem = s.mem) ∧
    (∀ a, a ≠ i.operand.toNat → t.mem.read a = s.mem.read a) := by
  rcases exec_cases h with ⟨hkind, -, v, rfl, hacc⟩ | ⟨-, v, m, rfl, hacc, hmem, hread⟩
  · exact ⟨rfl, .inl rfl, .inr ⟨hkind, rfl, rfl⟩, hacc, fun _ => rfl, fun _ _ => rfl⟩
  · exact ⟨rfl, .inr rfl, .inl ⟨rfl, rfl⟩, hacc, hmem, hread⟩

/-- Settles O8: `step_of_code` at each of the four codes, `exec_frame`, and each datapath in bounds and out of them. -/
theorem datapathsReadAndWriteOnlyTheirTable : Obligations.DatapathsReadAndWriteOnlyTheirTable := by
  refine ⟨fun s w hrun hpc hread => ?_, fun i s t => exec_frame, fun opd s s' _ => ?_,
    fun opd s s' hcfg hin hcell => ?_, fun opd s s' hcfg hacc hin => ?_, fun opd s s' hcfg hout => ?_,
    fun w w' hcode i => decode_kind_of_same_code hcode, fun s w hrun hpc hread hw h58 h19 h24 h7 => ?_⟩
  · exact ⟨step_of_code (k := .loadConst) hrun hpc hread, step_of_code (k := .loadMem) hrun hpc hread,
      step_of_code (k := .storeMem) hrun hpc hread, step_of_code (k := .abs) hrun hpc hread⟩
  · exact ⟨_, _, exec_loadConst opd s, exec_loadConst opd s', rfl⟩
  · exact ⟨_, _, exec_loadMem_of_lt hin, exec_loadMem_of_lt (hcfg ▸ hin), hcell⟩
  · refine ⟨⟨_, _, exec_storeMem_of_lt hin, exec_storeMem_of_lt (hcfg ▸ hin), ?_⟩,
      _, _, exec_abs_of_lt hin, exec_abs_of_lt (hcfg ▸ hin), ?_, ?_⟩
    · simp [cellAddress, hacc]
    · simp [hcfg, hacc]
    · simp [cellAddress, hcfg, hacc]
  · refine ⟨⟨_, _, exec_loadMem_of_le hout, exec_loadMem_of_le (hcfg ▸ hout), rfl, rfl, rfl, rfl⟩,
      ⟨_, _, exec_storeMem_of_le hout, exec_storeMem_of_le (hcfg ▸ hout), rfl, rfl, rfl, rfl⟩,
      fun hacc => ⟨_, _, exec_abs_of_le hout, exec_abs_of_le (hcfg ▸ hout), ?_, rfl, rfl⟩⟩
    simp [hcfg, hacc]
  · exact step_of_undefined hrun hpc hread (fun h0 => hw (BitVec.eq_of_toNat_eq h0))
      (operationOfCode_word_eq_none.mp (operationOfCode_of_ne h58 h19 h24 h7))

end Sys2Proof.Machine
end

section
/-! SUPPORT. LoadMem and StoreMem (spec 41_load_store.md R89, R90): the word and the operand of an instruction, the
fetch of a cell by the value it holds, and what the two instructions leave. -/

namespace Sys2Proof

/-! ### The word of an instruction -/

/-- The word of an instruction as a number (R51, R53). -/
theorem encode_toNat (i : Instr) : (encode i).toNat = (operationCode i.kind).toNat + i.operand.toNat * 2 ^ 6 :=
  encodeFields_toNat _ _

@[simp] theorem Instr.instr_kind_operand (i : Instr) : i.kind.instr i.operand = i := by
  cases i <;> rfl

/-- The word of every instruction, also of one no toolchain emits, decodes to it (R52, R53). -/
@[simp] theorem decode_encode (i : Instr) : decode (encode i) = .ok i := by
  obtain ⟨hcode, hopd⟩ := Laws.EncodedFields.of_kind i
  have hfield : (decodeFields (encode i)).2 = i.operand :=
    BitVec.eq_of_toNat_eq ((decodeFields_opd_toNat _).trans hopd)
  rw [decode_of_code hcode, hfield, Instr.instr_kind_operand]

end Sys2Proof

namespace Sys2Proof.Machine

/-- The address a toolchain puts into an instruction has 31 bits (R65). -/
theorem operand_le_of_validate {k : OperationKind} {v : Int} {i : Instr} (hk : k ≠ .loadConst)
    (h : validate (textRecord k v) = .ok i) : i.operand.toNat ≤ 2 ^ 31 - 1 := by
  by_cases hin : operandInRange k v = true
  · obtain ⟨opd, hvalid, hopd⟩ := validate_of_inRange hin
    obtain ⟨-, hbound⟩ := normalizedOperand_address_bounds hk hin
    cases hvalid.symm.trans h
    rw [OperationKind.operand_instr]
    omega
  · cases (validate_of_not_inRange hin).symm.trans h

/-! ### The fetch of a cell -/

/-- The fetch of a value that is no 40-bit word (R76, R96). -/
theorem State.fetchInstr_of_not_word {s : State} (hpc : s.pc < s.cfg.memCells)
    (hvalue : s.mem.read s.pc < 0 ∨ 2 ^ 40 ≤ s.mem.read s.pc) : s.fetchInstr = .error .invalidWord := by
  have hnonzero : s.mem.read s.pc ≠ 0 := by omega
  simp only [State.fetchInstr, State.readCell?_eq_some.mpr ⟨hpc, rfl⟩, if_neg hnonzero,
    wordOfCell_eq_none.mpr hvalue]

/-- The fetch of the word of an instruction answers that instruction. -/
theorem State.fetchInstr_of_encode {s : State} {i : Instr} (hpc : s.pc < s.cfg.memCells)
    (hread : s.mem.read s.pc = ((encode i).toNat : Int)) : s.fetchInstr = .ok i :=
  State.fetchInstr_of_decode hpc hread (decode_encode i)

/-! ### LoadMem -/

/-- Every cell of a loaded program: its record, or 0 past the last one (R110). -/
theorem State.loaded_read (s : State) (ws : List InsnWord) (a : Nat) :
    (s.loaded ws).mem.read a = ((ws.getD a 0#40).toNat : Int) := by
  rcases Nat.lt_or_ge a ws.length with hin | hpast
  · exact s.loaded_read_of_lt hin
  · rw [s.loaded_read_of_le hpast, List.getD_eq_default _ _ hpast]
    rfl

/-- A LoadMem whose address is its own cell loads its own word (R89). -/
theorem step_loadMem_own_word {opd : OperandField} {s : State} (hrun : s.halted = false)
    (hpc : s.pc < s.cfg.memCells) (hown : cellAddress opd = s.pc)
    (hread : s.mem.read s.pc = ((encode (.loadMem opd)).toNat : Int)) :
    step s = .next (s.setAcc ((encode (.loadMem opd)).toNat : Int)).advance := by
  rw [step_of_ok hrun (State.fetchInstr_of_encode hpc hread), exec_loadMem_of_lt (hown ▸ hpc), hown, hread]

/-- Settles O2: LoadMem in bounds and out of them, on its own word, and on the cells of a loaded program. -/
theorem loadMemLoadsTheAddressedCell : Obligations.LoadMemLoadsTheAddressedCell := by
  refine ⟨fun opd s => exec_loadMem_of_lt, fun opd s => exec_loadMem_of_le, fun opd s => step_loadMem_own_word,
    fun opd s ws _ hin => ?_, fun opd => encode_toNat (.loadMem opd),
    fun v i => operand_le_of_validate nofun, by decide⟩
  exact ⟨_, exec_loadMem_of_lt (s := s.loaded ws) hin, s.loaded_read ws opd.toNat⟩

/-! ### StoreMem -/

/-- A fetch from the cell of an earlier StoreMem finds the accumulator that was stored (R90). -/
theorem State.read_at_pc_after_storeMem {opd : OperandField} {s t u : State} (hin : cellAddress opd < s.cfg.memCells)
    (hexec : exec (.storeMem opd) s = .next t) (hcfg : u.cfg = t.cfg) (hmem : u.mem = t.mem)
    (hpc : u.pc = cellAddress opd) : u.pc < u.cfg.memCells ∧ u.mem.read u.pc = s.acc := by
  cases (exec_storeMem_of_lt hin).symm.trans hexec
  rw [hcfg, hmem, hpc]
  exact ⟨hin, Memory.read_write_same ..⟩

/-- Settles O3: StoreMem in bounds and out of them, and the later fetch by the value that was stored. -/
theorem storeMemStoresTheAccumulator : Obligations.StoreMemStoresTheAccumulator := by
  refine ⟨fun opd s hin => ?_, fun opd s => exec_storeMem_of_le, fun opd s t u hin hexec hcfg hmem hupc => ?_,
    fun opd => encode_toNat (.storeMem opd), fun v i => operand_le_of_validate nofun, by decide⟩
  · exact ⟨_, exec_storeMem_of_lt hin, rfl, Memory.read_write_same ..,
      fun a ha => Memory.read_write_other _ _ a _ ha⟩
  · obtain ⟨hpc, hread⟩ := State.read_at_pc_after_storeMem hin hexec hcfg hmem hupc
    refine ⟨fun hzero => ?_, fun hneg => ?_, fun i hword => ?_⟩
    · exact State.fetchInstr_of_zero hpc (hread.trans hzero)
    · exact State.fetchInstr_of_not_word hpc (.inl (hread.trans_lt hneg))
    · exact State.fetchInstr_of_encode hpc (hread.trans hword)

end Sys2Proof.Machine
end

section
/-! SUPPORT. Taking an exception (spec 60_exceptions.md R97): the causes a fetch can find, and the state an instruction
leaves when it halts a running machine. -/

namespace Sys2Proof.Machine

/-- A fetch that ends the step names one of the halting conditions: it never finds NONE (R98). -/
theorem State.fetchInstr_error_ne_none {s : State} {c : Cause} (h : s.fetchInstr = .error c) : c ≠ .none := by
  rintro rfl
  rcases s.fetchInstr_cases with
    ⟨-, hf⟩ | ⟨-, -, hf⟩ | ⟨-, -, hf⟩ | ⟨w, -, -, -, -, hf⟩ | ⟨w, i, -, -, -, -, hf⟩ <;>
  cases hf.symm.trans h

/-- An addressed instruction out of bounds raises in the state it was given, but that Abs has put the absolute value
into the accumulator before its bound check (R94, R97). -/
theorem exec_of_out_of_bounds {i : Instr} {s : State} (hkind : i.kind ≠ .loadConst)
    (hout : s.cfg.memCells ≤ i.operand.toNat) :
    (i.kind ≠ .abs → exec i s = .next (s.raise .outOfBoundsAccess)) ∧
    (i.kind = .abs → exec i s = .next ((s.setAcc (absW s.cfg.cellWidth s.acc)).raise .outOfBoundsAccess)) := by
  cases i with
  | loadConst opd => exact absurd rfl hkind
  | loadMem opd => exact ⟨fun _ => exec_loadMem_of_le hout, nofun⟩
  | storeMem opd => exact ⟨fun _ => exec_storeMem_of_le hout, nofun⟩
  | abs opd => exact ⟨fun hnot => absurd rfl hnot, fun _ => exec_abs_of_le hout⟩

/-- An instruction that halts a running machine has its address out of bounds (R79, R94). -/
theorem out_of_bounds_of_exec_halts {i : Instr} {s t : State} (hrun : s.halted = false) (h : exec i s = .next t)
    (hhalt : t.halted = true) :
    i.kind ≠ .loadConst ∧ s.cfg.memCells ≤ i.operand.toNat ∧ t.cause = .outOfBoundsAccess := by
  rcases exec_cases h with ⟨hkind, hout, v, rfl, -⟩ | ⟨-, v, m, rfl, -⟩
  · exact ⟨hkind, hout, rfl⟩
  · cases hrun.symm.trans hhalt

/-- A step that halts a running machine records a cause other than NONE (R97). -/
theorem step_halts_cause_ne_none {s t : State} (hrun : s.halted = false) (h : step s = .next t)
    (hhalt : t.halted = true) : t.cause ≠ .none := by
  rcases step_cases h with ⟨hhalted, -⟩ | ⟨-, c, hfetch, rfl⟩ | ⟨-, i, -, hexec⟩
  · cases hrun.symm.trans hhalted
  · exact State.fetchInstr_error_ne_none hfetch
  · obtain ⟨-, -, hcause⟩ := out_of_bounds_of_exec_halts hrun hexec hhalt
    exact hcause ▸ nofun

/-- A step that halts a running machine leaves `pc` (R97). -/
theorem step_halts_pc {s t : State} (hrun : s.halted = false) (h : step s = .next t) (hhalt : t.halted = true) :
    t.pc = s.pc := by
  rcases step_pc_cases hrun h with ⟨hrunning, -, -⟩ | ⟨-, hpc⟩
  · cases hrunning.symm.trans hhalt
  · exact hpc

/-- Settles O21: the halt comes from the fetch, which raises in the state it found, or from an instruction that
`exec_of_out_of_bounds` describes. -/
theorem raisingChangesOnlyHaltedAndCause : Obligations.RaisingChangesOnlyHaltedAndCause := by
  intro s t hrun hstep hhalt
  have hperform := State.perform_step hstep
  rw [State.report_of_halted hhalt] at hperform
  refine ⟨hperform, step_halts_cause_ne_none hrun hstep hhalt, step_halts_pc hrun hstep hhalt,
    fun c hfetch => ?_, fun i hfetch => ?_⟩
  · cases hstep.symm.trans (step_of_error hrun hfetch)
    rfl
  · have hexec : exec i s = .next t := (step_of_ok hrun hfetch).symm.trans hstep
    obtain ⟨hkind, hout, -⟩ := out_of_bounds_of_exec_halts hrun hexec hhalt
    obtain ⟨hother, habs⟩ := exec_of_out_of_bounds hkind hout
    refine ⟨hkind, hout, fun hnot => ?_, fun his => ?_⟩
    · cases hexec.symm.trans (hother hnot)
      rfl
    · cases hexec.symm.trans (habs his)
      rfl

end Sys2Proof.Machine
end

section
/-! SUPPORT. Load and the initial values (spec 70_reset_and_hazards.md R108, R111, R113, R116): what a Load keeps or
discards, which cells a step can store to, and the zeros a program finds outside its own cells. -/

namespace Sys2Proof

/-- The four kinds, by whether they can store (R80). -/
theorem OperationKind.loads_or_stores (k : OperationKind) :
    (k = .loadConst ∨ k = .loadMem) ∨ (k = .storeMem ∨ k = .abs) := by
  cases k <;> simp

end Sys2Proof

namespace Sys2Proof.Machine

/-! ### The outcomes of Load -/

/-- A byte length that is no multiple of 5 fails the Load (R111). -/
theorem State.load_of_malformed (s : State) {bytes : List Byte} (h : bytes.length % 5 ≠ 0) :
    s.load bytes = (.malformedProgram, s) := by
  simp only [State.load, programWords_eq_none.mpr h]

/-- A Load that does not answer ok changes no state (R113). -/
theorem State.load_failed {s t : State} {bytes : List Byte} {r : LoadStatus} (h : s.load bytes = (r, t))
    (hfail : r ≠ .ok) : t = s := by
  rcases s.load_cases bytes with ⟨-, hl⟩ | ⟨ws, -, -, -, hl⟩ | ⟨ws, -, -, -, hl⟩
  · cases hl.symm.trans h
    rfl
  · cases hl.symm.trans h
    rfl
  · cases hl.symm.trans h
    exact absurd rfl hfail

/-- The state after a successful Load depends on the earlier one by its parameters only (R113). -/
theorem State.loaded_congr {s s' : State} (hcfg : s'.cfg = s.cfg) (ws : List InsnWord) :
    s'.loaded ws = s.loaded ws := by
  simp only [State.loaded, hcfg]

/-- Settles O43: reset and power-on by definition, and Load by the state `State.load_ok` gives. -/
theorem entryPointIsCellZero : Obligations.EntryPointIsCellZero := by
  refine ⟨fun s => State.powerOn_pc s.cfg, fun s t bytes hload => ?_, State.powerOn_pc⟩
  obtain ⟨ws, -, -, rfl⟩ := State.load_ok hload
  exact s.loaded_pc ws

/-- Settles O47: `State.load_of_malformed` as a block operation. -/
theorem malformedProgramLeavesTheState : Obligations.MalformedProgramLeavesTheState := by
  intro s bytes hlen
  rw [State.perform, s.load_of_malformed hlen]

/-- Settles O49: `State.load_failed`, and `State.loaded_congr` for the program that loaded. -/
theorem loadReplacesTheStateOrLeavesIt : Obligations.LoadReplacesTheStateOrLeavesIt := by
  refine ⟨fun s t bytes r => State.load_failed, fun s t s' bytes hload hcfg => ?_⟩
  obtain ⟨ws, hws, hlen, rfl⟩ := State.load_ok hload
  rw [← State.loaded_congr hcfg ws]
  exact State.load_of_programWords hws (hcfg ▸ hlen)

/-! ### Which cells are stored to -/

/-- An instruction leaves a cell, or is a StoreMem or an Abs with that cell as its address, in bounds (R80). -/
theorem exec_cell_cases {i : Instr} {s t : State} (h : exec i s = .next t) (a : Nat) :
    t.mem.read a = s.mem.read a ∨
    (a < s.cfg.memCells ∧ (i.kind = .storeMem ∨ i.kind = .abs) ∧ i.operand.toNat = a) := by
  rcases exec_cases h with ⟨-, -, v, rfl, -⟩ | ⟨hin, v, m, rfl, -, hmem, hread⟩
  · exact .inl rfl
  by_cases ha : a = i.operand.toNat
  · rcases i.kind.loads_or_stores with hload | hstore
    · exact .inl (congrArg (Memory.read · a) (hmem hload))
    · have hnotConst : i.kind ≠ .loadConst := by rcases hstore with hk | hk <;> simp [hk]
      exact .inr ⟨ha ▸ hin.resolve_left hnotConst, hstore, ha.symm⟩
  · exact .inl (hread a ha)

/-- A step leaves every cell it does not store to (R116). -/
theorem step_keeps_cell {s t : State} {a : Nat} (h : step s = .next t) (hnot : ¬ s.StoresTo a) :
    t.mem.read a = s.mem.read a := by
  rcases step_cases h with ⟨-, rfl⟩ | ⟨-, c, -, rfl⟩ | ⟨hrun, i, hfetch, hexec⟩
  · rfl
  · rfl
  · exact (exec_cell_cases hexec a).resolve_right fun ⟨hlt, hkind, hopd⟩ => hnot ⟨hrun, hlt, i, hfetch, hkind, hopd⟩

/-- Steps and reads by the host leave a cell that none of the steps stores to (R116). -/
theorem State.performAll_keeps_cell {s : State} {ops : List BlockOp} {a : Nat}
    (hkeep : ops.all BlockOp.keepsProgram = true)
    (hnot : ∀ m, ops[m]? = some .step → ¬ (s.performAll (ops.take m)).StoresTo a) :
    (s.performAll ops).mem.read a = s.mem.read a := by
  induction ops generalizing s with
  | nil => rfl
  | cons op ops ih =>
    obtain ⟨hop, hops⟩ : op.keepsProgram = true ∧ ops.all BlockOp.keepsProgram = true := by simpa using hkeep
    have hhead : (s.perform op).2.mem.read a = s.mem.read a := by
      cases op with
      | reset => cases hop
      | load bytes => cases hop
      | step =>
        obtain ⟨t, ht⟩ := step_next s
        rw [State.perform_step ht]
        exact step_keeps_cell ht (hnot 0 rfl)
      | readCell a => rfl
      | snapshot => rfl
    exact (ih hops fun m => hnot (m + 1)).trans hhead

/-! ### The initial values -/

/-- After Load the accumulator is 0, and so is every cell outside the program (R110, R116). -/
theorem State.load_ok_initial_values {s t : State} {bytes : List Byte} (h : s.load bytes = (.ok, t)) :
    t.acc = 0 ∧ ∀ a, bytes.length / 5 ≤ a → t.mem.read a = 0 := by
  obtain ⟨ws, hws, -, rfl⟩ := State.load_ok h
  refine ⟨rfl, fun a ha => s.loaded_read_of_le ?_⟩
  have hlen := length_of_programWords hws
  omega

/-- LoadMem of a cell that holds 0 (R89). -/
theorem exec_loadMem_of_zero {opd : OperandField} {s : State} (hin : opd.toNat < s.cfg.memCells)
    (hzero : s.mem.read opd.toNat = 0) : exec (.loadMem opd) s = .next (s.setAcc 0).advance := by
  rw [exec_loadMem_of_lt hin, cellAddress, hzero]

/-- Settles O50: the zeros of `State.load_ok_initial_values`, kept by `State.performAll_keeps_cell` over block
operations and by `exec_cell_cases` over a store to another cell. -/
theorem programMayRelyOnInitialValues : Obligations.ProgramMayRelyOnInitialValues := by
  refine ⟨fun s t a => step_keeps_cell, fun s t bytes hload => ?_,
    fun s t u v bytes opd opd' hload hstore hpast hin hne hexec => ?_⟩
  · obtain ⟨hacc, hzero⟩ := State.load_ok_initial_values hload
    refine ⟨hacc, fun a hpast hin => State.readCell?_eq_some.mpr ⟨hin, hzero a hpast⟩, fun opd hpast hin => ?_,
      fun ops a hkeep hpast hin hnot => ?_⟩
    · obtain ⟨ws, -, -, rfl⟩ := State.load_ok hload
      exact exec_loadMem_of_zero hin (hzero _ hpast)
    · have hstill : (t.performAll ops).mem.read a = 0 :=
        (State.performAll_keeps_cell hkeep hnot).trans (hzero a hpast)
      have hbound : a < (t.performAll ops).cfg.memCells := (t.performAll_cfg ops).symm ▸ hin
      refine ⟨State.readCell?_eq_some.mpr ⟨hbound, hstill⟩, ?_⟩
      rintro opd rfl
      exact exec_loadMem_of_zero hbound hstill
  · obtain ⟨-, hzero⟩ := State.load_ok_initial_values hload
    have hother : opd.toNat ≠ opd'.toNat := fun h => hne (BitVec.eq_of_toNat_eq h.symm)
    obtain ⟨i, hopd, hexecStore⟩ : ∃ i : Instr, i.operand = opd ∧ exec i t = .next u :=
      hstore.elim (fun h => ⟨_, rfl, h⟩) (fun h => ⟨_, rfl, h⟩)
    have hkept : u.mem.read opd'.toNat = t.mem.read opd'.toNat :=
      (exec_cell_cases hexecStore opd'.toNat).resolve_right fun ⟨_, _, h⟩ => hother (hopd ▸ h)
    obtain ⟨hcfg, -⟩ := exec_frame hexecStore
    cases (exec_loadMem_of_zero (hcfg ▸ hin) (hkept.trans (hzero _ hpast))).symm.trans hexec
    rfl

end Sys2Proof.Machine
end

section
/-! SUPPORT. Encoding and decoding (spec 30_encoding.md sections 1 and 2): the fields, the word and the record of an
instruction, each recovered from the next. -/

namespace Sys2Proof

/-- Both fields come back from the word they were put into (R51, R52). -/
@[simp] theorem decodeFields_encodeFields (c : Opcode) (v : OperandField) :
    decodeFields (encodeFields c v) = (c, v) := by
  have hc := c.isLt
  refine Prod.ext (BitVec.eq_of_toNat_eq ?_) (BitVec.eq_of_toNat_eq ?_)
  · rw [decodeFields_opc_toNat, encodeFields_toNat]
    dsimp only
    omega
  · rw [decodeFields_opd_toNat, encodeFields_toNat]
    dsimp only
    omega

@[simp] theorem decodeFields_encode (i : Instr) : decodeFields (encode i) = (operationCode i.kind, i.operand) :=
  decodeFields_encodeFields _ _

/-- Byte `k` of a word's record is its `k`-th byte (R50). -/
theorem getD_wordRecord (w : InsnWord) {k : Nat} (hk : k < 5) : (wordRecord w).getD k 0#8 = wordByte w k := by
  interval_cases k <;> rfl

/-- The decoder reads an instruction from its record, and leaves what follows. -/
theorem decodeBytes_encodeBytes (i : Instr) (rest : List Byte) :
    decodeBytes (encodeBytes i ++ rest) = .ok (i, rest) := by
  rw [encodeBytes, decodeBytes_wordRecord, decode_encode]

/-- A word whose record decodes is decoded to the same instruction. -/
theorem decode_of_decodeBytes {w : InsnWord} {i : Instr} {rest : List Byte}
    (h : decodeBytes (wordRecord w) = .ok (i, rest)) : decode w = .ok i := by
  have hrecord := decodeBytes_wordRecord w []
  rw [List.append_nil, h] at hrecord
  rcases hdecode : decode w with e | j
  · rw [hdecode] at hrecord
    cases hrecord
  · rw [hdecode] at hrecord
    cases hrecord
    rfl

/-- The words that are instructions are the words of instructions. -/
theorem decode_eq_ok_iff {w : InsnWord} {i : Instr} : decode w = .ok i ↔ w = encode i :=
  ⟨fun h => (encode_of_decode h).symm, fun h => h ▸ decode_encode i⟩

theorem encode_injective : Function.Injective encode := by
  intro i j h
  have hdecode : decode (encode i) = .ok j := decode_eq_ok_iff.mpr h
  cases (decode_encode i).symm.trans hdecode
  rfl

/-- Settles O11: `decode_encode` as a word and as a record, and its converse `encode_of_decode`. -/
theorem decodeAndEncodeAgree : Obligations.DecodeAndEncodeAgree :=
  ⟨fun i rest => ⟨decode_encode i, decodeBytes_encodeBytes i rest⟩, fun _ _ => encode_of_decode,
    fun _ _ h => encode_injective h⟩

/-- Settles O10: the fields of a word by `encodeFields_toNat`, its bytes by `wordByte_toNat`. -/
theorem fieldsRoundTripThroughTheWord : Obligations.FieldsRoundTripThroughTheWord := by
  refine ⟨fun c v => ⟨encodeFields_toNat c v, decodeFields_encodeFields c v⟩,
    fun w => ⟨decodeFields_opc_toNat w, decodeFields_opd_toNat w, encodeFields_decodeFields w⟩, fun w k hk => ?_⟩
  rw [getD_wordRecord w hk, wordByte_toNat, show 256 = 2 ^ 8 from rfl]

/-- The instruction of a word with the code of an operation, its operand as a number (R55). -/
theorem decode_of_code_toNat {w : InsnWord} {k : OperationKind} (h : w.toNat % 64 = (operationCode k).toNat) :
    decode w = .ok (k.instr (BitVec.ofNat 34 (w.toNat / 64))) := by
  rw [decode_of_code h, Machine.decodeFields_opd]

/-- A word is an instruction exactly when it has the code of an operation (R55, R58). -/
theorem exists_decode_iff {w : InsnWord} :
    (∃ i, decode w = .ok i) ↔ ∃ k, w.toNat % 64 = (operationCode k).toNat := by
  constructor
  · rintro ⟨i, hdecode⟩
    obtain ⟨hcode, -⟩ := Laws.EncodedFields.of_kind i
    rw [encode_of_decode hdecode] at hcode
    exact ⟨i.kind, hcode⟩
  · rintro ⟨k, hcode⟩
    exact ⟨_, decode_of_code hcode⟩

/-- Settles O13: `decode_of_code_toNat` at each of the four codes. -/
theorem opcodeSelectsTheInstruction : Obligations.OpcodeSelectsTheInstruction := fun _ =>
  ⟨decode_of_code_toNat (k := .loadConst), decode_of_code_toNat (k := .loadMem),
    decode_of_code_toNat (k := .storeMem), decode_of_code_toNat (k := .abs),
    exists_decode_iff.trans exists_operationCode_iff⟩

/-- Settles O14: the decoder run on each word. -/
theorem writtenOutWordsDecode : Obligations.WrittenOutWordsDecode :=
  ⟨rfl, rfl, rfl, rfl, rfl, rfl, rfl, rfl, rfl, rfl, rfl, rfl, rfl⟩

/-- The word of an instruction, numbered as the opcode table numbers it, is that word. -/
@[simp] theorem tableWord_toNat (w : InsnWord) : tableWord 40 w.toNat = w := by
  rw [tableWord, Nat.mod_eq_of_lt w.isLt, BitVec.ofNat_toNat, BitVec.setWidth_eq]

end Sys2Proof
end

section
/-! SUPPORT. The arithmetic of the accumulator (spec 42_abs.md, Arithmetic; 30_encoding.md section 2): the absolute
value in W bits, the 17-bit sign extension, and the two instructions that compute with them. -/

namespace Sys2Proof.Machine

/-! ### The absolute value -/

theorem absW_eq_narrow_abs (w : Nat) (x : Int) : absW w x = narrow w |x| := by
  unfold absW
  split_ifs with h
  · rw [abs_of_nonneg h]
  · rw [abs_of_neg (not_le.mp h)]

/-- The absolute value is a W-bit integer, whatever it is taken of. -/
theorem absW_fitsWidth {w : Nat} (hw : 1 ≤ w) (x : Int) : FitsWidth w (absW w x) := by
  rw [absW_eq_narrow_abs]
  obtain ⟨hlow, hhigh⟩ := narrow_bounds |x| hw
  exact ⟨hlow, by omega⟩

/-- An absolute value below 2^(W-1) is held exactly. -/
theorem absW_eq_abs {w : Nat} {x : Int} (hw : 1 ≤ w) (hx : |x| < 2 ^ (w - 1)) : absW w x = |x| := by
  rw [absW_eq_narrow_abs]
  have hpos : (0 : Int) < 2 ^ (w - 1) := by positivity
  exact narrow_of_bounds hw (by have := abs_nonneg x; omega) hx

/-- 2^(W-1) wraps to the most negative W-bit value (decision D10). -/
theorem narrow_two_pow {w : Nat} (hw : 1 ≤ w) : narrow w (2 ^ (w - 1)) = -2 ^ (w - 1) := by
  have hpos : (0 : Int) < 2 ^ (w - 1) := by positivity
  have hdouble : ((2 ^ w : Nat) : Int) = 2 * 2 ^ (w - 1) := by
    obtain ⟨k, rfl⟩ : ∃ k, w = k + 1 := ⟨w - 1, by omega⟩
    push_cast [Nat.add_sub_cancel]
    ring
  calc narrow w (2 ^ (w - 1))
      = narrow w (2 ^ (w - 1) - ((2 ^ w : Nat) : Int)) := (Int.sub_bmod_right _ _).symm
    _ = narrow w (-2 ^ (w - 1)) := by rw [hdouble]; congr 1; ring
    _ = -2 ^ (w - 1) := narrow_of_bounds hw le_rfl (by omega)

/-- Settles O5: `absW_eq_abs` within the range, and the wrap of `narrow_two_pow` at its end. -/
theorem absoluteValueIsExactButAtTheMostNegativeValue :
    Obligations.AbsoluteValueIsExactButAtTheMostNegativeValue := by
  refine ⟨fun w x hw hlow hhigh => ⟨absW_eq_abs hw ?_, absW_fitsWidth hw x⟩, fun w hw => ?_⟩
  · exact abs_lt.mpr ⟨hlow, by omega⟩
  · rw [absW_eq_narrow_abs, abs_neg, abs_of_nonneg (by positivity), narrow_two_pow hw]

/-- Settles O4: Abs in bounds and out of them, and its word. -/
theorem absReplacesAndStoresTheAccumulator : Obligations.AbsReplacesAndStoresTheAccumulator :=
  ⟨fun _ _ hin => ⟨_, exec_abs_of_lt hin, rfl, Memory.read_write_same ..,
      fun a ha => Memory.read_write_other _ _ a _ ha⟩,
    fun _ _ => exec_abs_of_le, fun opd => encode_toNat (.abs opd), by decide⟩

/-! ### The sign extension -/

/-- `sext_17` on the number of an operand field (R56). -/
theorem sext17_eq (v : OperandField) :
    sext17 v = if v.toNat / 2 ^ 16 % 2 = 1 then (v.toNat : Int) - 2 ^ 17 else (v.toNat : Int) := by
  rcases hbit : v.getLsbD 16 with _ | _
  · rw [sext17_of_not_bit hbit, if_neg]
    simp only [operandBit16, decide_eq_false_iff_not] at hbit
    omega
  · rw [sext17_of_bit hbit, if_pos]
    simp only [operandBit16, decide_eq_true_eq] at hbit
    omega

theorem sext17_bounds (v : OperandField) : -2 ^ 16 ≤ sext17 v ∧ sext17 v ≤ 2 ^ 34 - 1 := by
  have hv := v.isLt
  rw [sext17_eq]
  split <;> omega

/-- Below 2^17 the sign extension is the value of the 17 bits in two's complement. -/
theorem sext17_eq_toInt {v : OperandField} (hv : v.toNat < 2 ^ 17) : sext17 v = (v.setWidth 17).toInt := by
  rw [sext17_eq, BitVec.toInt_eq_toNat_cond, BitVec.toNat_setWidth, Nat.mod_eq_of_lt hv]
  split <;> split <;> omega

/-- Disassembly of the word of an instruction (R68). -/
theorem disassembleWord_encode (i : Instr) :
    disassembleWord (encode i) = (.known i.kind, disassembledOperand (operationCode i.kind) i.operand) := by
  rw [disassembleWord, decodeFields_encode, nameOfCode_operationCode]

/-- Settles O6: `sext17_eq` and the bounds it gives, and the two operations that apply it. -/
theorem signExtensionOfTheOperand : Obligations.SignExtensionOfTheOperand := by
  refine ⟨sext17_eq, fun v hv => ⟨sext17_eq_toInt hv, ?_⟩, sext17_bounds,
    fun v s => ⟨_, exec_loadConst v s, rfl⟩, fun v => disassembleWord_encode (.loadConst v)⟩
  rw [sext17_eq]
  split <;> omega

/-- Settles O1: `exec_loadConst`, the word of a LoadConst, and the values at the corners of the operand. -/
theorem loadConstLoadsTheSignedConstant : Obligations.LoadConstLoadsTheSignedConstant := by
  refine ⟨exec_loadConst, fun opd => ?_, by decide⟩
  have hword : (encode (.loadConst opd)).toNat = 58 + opd.toNat * 2 ^ 6 := encode_toNat (.loadConst opd)
  refine ⟨hword, fun hzero => ?_⟩
  have hnumber : (encode (.loadConst opd)).toNat = 0 := congrArg BitVec.toNat hzero
  omega

end Sys2Proof.Machine
end

section
/-! SUPPORT. Canonical memories (assumption log 2, for spec 10_state.md section 3): one that reads the same as another is
the same. -/

namespace Sys2Proof.Machine

/-- The first listed cell is read as its entry, and a list that begins after it reads 0 there. -/
theorem readCells_ne_of_head_lt {l : List (Nat × Int)} {b : Nat} {u : Int} {rest : List (Nat × Int)} (hu : u ≠ 0)
    (hlater : ∀ p ∈ l, b < p.1) : readCells ((b, u) :: rest) b ≠ readCells l b := by
  rw [readCells_eq_blank hlater]
  simpa [readCells] using hu

/-- Rising lists of entries other than 0 that read the same in every cell are equal. -/
theorem cells_ext {l l' : List (Nat × Int)} (hl : l.Pairwise (fun p q => p.1 < q.1))
    (hl' : l'.Pairwise (fun p q => p.1 < q.1)) (hn : ∀ p ∈ l, p.2 ≠ 0) (hn' : ∀ p ∈ l', p.2 ≠ 0)
    (hread : ∀ a, readCells l a = readCells l' a) : l = l' := by
  induction l generalizing l' with
  | nil =>
    cases l' with
    | nil => rfl
    | cons q rest' => exact absurd (hread q.1).symm (readCells_ne_of_head_lt (hn' q List.mem_cons_self) nofun)
  | cons p rest ih =>
    cases l' with
    | nil => exact absurd (hread p.1) (readCells_ne_of_head_lt (hn p List.mem_cons_self) nofun)
    | cons q rest' =>
      obtain ⟨hp, hrest⟩ := List.pairwise_cons.mp hl
      obtain ⟨hq, hrest'⟩ := List.pairwise_cons.mp hl'
      rcases Nat.lt_trichotomy p.1 q.1 with hlt | heq | hgt
      · refine absurd (hread p.1) (readCells_ne_of_head_lt (hn p List.mem_cons_self) ?_)
        exact List.forall_mem_cons.mpr ⟨hlt, fun r hr => hlt.trans (hq r hr)⟩
      · have hvalue : p.2 = q.2 := by simpa [readCells, heq] using hread p.1
        obtain rfl : p = q := Prod.ext heq hvalue
        refine congrArg (p :: ·) (ih hrest hrest' (fun r hr => hn r (List.mem_cons_of_mem _ hr))
          (fun r hr => hn' r (List.mem_cons_of_mem _ hr)) fun a => ?_)
        by_cases ha : a = p.1
        · rw [ha, readCells_eq_blank hp, readCells_eq_blank hq]
        · simpa [readCells, ha] using hread a
      · refine absurd (hread q.1).symm (readCells_ne_of_head_lt (hn' q List.mem_cons_self) ?_)
        exact List.forall_mem_cons.mpr ⟨hgt, fun r hr => hgt.trans (hp r hr)⟩

theorem Memory.ext_of_read {m m' : Memory} (hm : m.wf = true) (hm' : m'.wf = true)
    (hread : ∀ a, m.read a = m'.read a) : m = m' := by
  obtain ⟨hrising, hnonzero⟩ := m.wf_iff.mp hm
  obtain ⟨hrising', hnonzero'⟩ := m'.wf_iff.mp hm'
  exact congrArg Memory.mk (cells_ext hrising hrising' hnonzero hnonzero' hread)

/-- Settles O37: `Memory.ext_of_read`, with the reads after a write. -/
theorem canonicalMemoriesAreEqualWhenTheyReadTheSame :
    Obligations.CanonicalMemoriesAreEqualWhenTheyReadTheSame := by
  refine ⟨fun m m' => Memory.ext_of_read, fun m a b u v hm hab => ?_, fun m a hm => ?_⟩
  · refine Memory.ext_of_read (Memory.write_wf _ _ (Memory.write_wf _ _ hm))
      (Memory.write_wf _ _ (Memory.write_wf _ _ hm)) fun c => ?_
    simp only [Memory.read_write]
    by_cases hcb : c = b
    · rw [if_pos hcb, if_neg fun hca => hab (hca.symm.trans hcb), if_pos hcb]
    · rw [if_neg hcb, if_neg hcb]
  · refine Memory.ext_of_read (Memory.write_wf _ _ hm) hm fun b => ?_
    rw [Memory.read_write]
    split_ifs with hb
    · rw [hb]
    · rfl

end Sys2Proof.Machine
end

section
/-! SUPPORT. The invariants (spec 10_state.md sections 1 to 3): which values a step and a Load put into the accumulator
and the cells, and from these that every block operation keeps the invariant and the value invariant. -/

namespace Sys2Proof.Machine

/-! ### What a step writes -/

/-- The value an instruction leaves in the accumulator is the old one, a constant, a cell or the absolute value; and the
one it writes to memory, if any, is that value, to a cell below N. -/
theorem exec_writes {i : Instr} {s t : State} (h : exec i s = .next t) :
    (t.acc = s.acc ∨ (∃ opd, t.acc = sext17 opd) ∨ (∃ a, t.acc = s.mem.read a) ∨
      t.acc = absW s.cfg.cellWidth s.acc) ∧
    (t.mem = s.mem ∨ ∃ a < s.cfg.memCells, t.mem = s.mem.write a t.acc) := by
  cases i with
  | loadConst opd =>
    obtain rfl := execLoadConst_cases h
    exact ⟨.inr (.inl ⟨opd, rfl⟩), .inl rfl⟩
  | loadMem opd =>
    rcases execLoadMem_cases h with ⟨-, rfl⟩ | ⟨-, rfl⟩
    · exact ⟨.inl rfl, .inl rfl⟩
    · exact ⟨.inr (.inr (.inl ⟨cellAddress opd, rfl⟩)), .inl rfl⟩
  | storeMem opd =>
    rcases execStoreMem_cases h with ⟨-, rfl⟩ | ⟨hin, rfl⟩
    · exact ⟨.inl rfl, .inl rfl⟩
    · exact ⟨.inl rfl, .inr ⟨cellAddress opd, hin, rfl⟩⟩
  | abs opd =>
    rcases execAbs_cases h with ⟨-, rfl⟩ | ⟨hin, rfl⟩
    · exact ⟨.inr (.inr (.inr rfl)), .inl rfl⟩
    · exact ⟨.inr (.inr (.inr rfl)), .inr ⟨cellAddress opd, hin, rfl⟩⟩

theorem step_writes {s t : State} (h : step s = .next t) :
    (t.acc = s.acc ∨ (∃ opd, t.acc = sext17 opd) ∨ (∃ a, t.acc = s.mem.read a) ∨
      t.acc = absW s.cfg.cellWidth s.acc) ∧
    (t.mem = s.mem ∨ ∃ a < s.cfg.memCells, t.mem = s.mem.write a t.acc) := by
  rcases step_cases h with ⟨-, rfl⟩ | ⟨-, c, -, rfl⟩ | ⟨-, i, -, hexec⟩
  · exact ⟨.inl rfl, .inl rfl⟩
  · exact ⟨.inl rfl, .inl rfl⟩
  · exact exec_writes hexec

/-! ### A property of every value -/

/-- The accumulator and every cell have a property. -/
def State.HoldsEverywhere (P : Int → Prop) (s : State) : Prop :=
  P s.acc ∧ ∀ a, P (s.mem.read a)

theorem State.fitsCells_iff {s : State} : s.FitsCells ↔ s.HoldsEverywhere (FitsWidth s.cfg.cellWidth) := Iff.rfl

/-- A property of the constants and of absolute values, once held everywhere, is held everywhere after a step. -/
theorem step_holdsEverywhere {P : Int → Prop} {s t : State} (hconst : ∀ opd, P (sext17 opd))
    (habs : P s.acc → P (absW s.cfg.cellWidth s.acc)) (hs : s.HoldsEverywhere P) (h : step s = .next t) :
    t.HoldsEverywhere P := by
  obtain ⟨hacc, hcells⟩ := hs
  obtain ⟨hvalue, hmem⟩ := step_writes h
  have htacc : P t.acc := by
    rcases hvalue with hv | ⟨opd, hv⟩ | ⟨a, hv⟩ | hv <;> rw [hv]
    exacts [hacc, hconst opd, hcells a, habs hacc]
  refine ⟨htacc, fun b => ?_⟩
  rcases hmem with hm | ⟨a, -, hm⟩ <;> rw [hm]
  · exact hcells b
  · rw [Memory.read_write]
    split_ifs
    · exact htacc
    · exact hcells b

/-- A property of every word is held everywhere after a Load: 0 is the word of the cells past the program. -/
theorem State.loaded_holdsEverywhere {P : Int → Prop} (hword : ∀ w : InsnWord, P (w.toNat : Int)) (s : State)
    (ws : List InsnWord) : (s.loaded ws).HoldsEverywhere P :=
  ⟨hword 0#40, fun a => s.loaded_read ws a ▸ hword _⟩

/-! ### Block operations -/

/-- Reset leaves the state of a Load of no record. -/
theorem State.loaded_nil (s : State) : s.loaded [] = State.powerOn s.cfg := rfl

/-- A property that Load and step keep is kept by every block operation. -/
theorem State.perform_keeps {P : State → Prop} {s : State} (op : BlockOp)
    (hload : ∀ ws : List InsnWord, ws.length ≤ s.cfg.memCells → P (s.loaded ws))
    (hstep : ∀ t, step s = .next t → P t) (hs : P s) : P (s.perform op).2 := by
  cases op with
  | reset => exact hload [] (Nat.zero_le _)
  | load bytes =>
    rcases s.load_cases bytes with ⟨-, h⟩ | ⟨ws, -, -, -, h⟩ | ⟨ws, -, -, hfits, h⟩ <;> simp only [State.perform, h]
    · exact hs
    · exact hs
    · exact hload ws hfits
  | step =>
    obtain ⟨t, ht⟩ := step_next s
    rw [State.perform_step ht]
    exact hstep t ht
  | readCell a => exact hs
  | snapshot => exact hs

/-- Settles O36: `State.perform_cfg` and `State.performAll_cfg`. -/
theorem parametersNeverChange : Obligations.ParametersNeverChange :=
  ⟨fun s op => ⟨congrArg Config.memCells (s.perform_cfg op), s.perform_cfg op⟩, State.performAll_cfg, rfl⟩

/-! ### The value invariant -/

theorem sext17_reachable (opd : OperandField) : ReachableValue (sext17 opd) := by
  obtain ⟨hlow, hhigh⟩ := sext17_bounds opd
  exact ⟨hlow, by omega⟩

theorem word_reachable (w : InsnWord) : ReachableValue (w.toNat : Int) := by
  have hw := w.isLt
  constructor <;> omega

/-- 2^40 is within the positive half of a cell (R8, R25). -/
theorem two_pow_40_le {w : Nat} (hw : 41 ≤ w) : (2 : Int) ^ 40 ≤ 2 ^ (w - 1) :=
  pow_le_pow_right₀ (by decide) (by omega)

theorem ReachableValue.fitsWidth {w : Nat} {v : Int} (hw : 41 ≤ w) (hv : ReachableValue v) : FitsWidth w v := by
  have hwide := two_pow_40_le hw
  obtain ⟨hlow, hhigh⟩ := hv
  constructor <;> omega

/-- No reachable value overflows under Abs, in any width (R25). -/
theorem ReachableValue.absW_eq {w : Nat} {v : Int} (hw : 41 ≤ w) (hv : ReachableValue v) : absW w v = |v| := by
  have hwide := two_pow_40_le hw
  obtain ⟨hlow, hhigh⟩ := hv
  exact absW_eq_abs (by omega) (abs_lt.mpr (by constructor <;> omega))

theorem ReachableValue.abs {v : Int} (hv : ReachableValue v) : ReachableValue |v| := by
  obtain ⟨hlow, hhigh⟩ := hv
  exact ⟨by have := abs_nonneg v; omega, abs_le.mpr (by constructor <;> omega)⟩

theorem step_valuesReachable {s t : State} (hw : 41 ≤ s.cfg.cellWidth) (hs : s.ValuesReachable)
    (h : step s = .next t) : t.ValuesReachable :=
  step_holdsEverywhere sext17_reachable (fun hacc => hacc.absW_eq hw ▸ hacc.abs) hs h

theorem State.loaded_valuesReachable (s : State) (ws : List InsnWord) : (s.loaded ws).ValuesReachable :=
  s.loaded_holdsEverywhere word_reachable ws

theorem State.powerOn_valuesReachable (c : Config) : (State.powerOn c).ValuesReachable :=
  (State.powerOn c).loaded_valuesReachable []

theorem State.perform_valuesReachable {s : State} (op : BlockOp) (hw : 41 ≤ s.cfg.cellWidth)
    (hs : s.ValuesReachable) : (s.perform op).2.ValuesReachable :=
  State.perform_keeps op (fun ws _ => s.loaded_valuesReachable ws) (fun _ => step_valuesReachable hw hs) hs

/-- Settles O34: each block operation by `State.perform_valuesReachable`, Abs by `ReachableValue.absW_eq`. -/
theorem valuesStayReachable : Obligations.ValuesStayReachable := by
  refine ⟨fun s t hvalid => ?_, fun c ops hvalid => ?_, fun s hvalid hs => ?_⟩
  · obtain ⟨-, -, hw⟩ := hvalid
    exact step_valuesReachable hw
  · obtain ⟨-, -, hw⟩ := hvalid
    have hkeep : ∀ (s : State) (op : BlockOp), 41 ≤ s.cfg.cellWidth ∧ s.ValuesReachable →
        41 ≤ (s.perform op).2.cfg.cellWidth ∧ (s.perform op).2.ValuesReachable :=
      fun s op ⟨hws, hs⟩ => ⟨(s.perform_cfg op).symm ▸ hws, State.perform_valuesReachable op hws hs⟩
    exact (State.performAll_keeps hkeep ops ⟨hw, State.powerOn_valuesReachable c⟩).2
  · obtain ⟨-, -, hw⟩ := hvalid
    obtain ⟨hacc, -⟩ := hs
    exact hacc.absW_eq hw

/-! ### The invariant of the machine -/

/-- A step keeps `halted = false` iff `cause = NONE` (R21). -/
theorem step_causeAgrees {s t : State} (hs : s.CauseAgrees) (h : step s = .next t) : t.CauseAgrees := by
  rcases step_cases h with ⟨-, rfl⟩ | ⟨-, c, hfetch, rfl⟩ | ⟨-, i, -, hexec⟩
  · exact hs
  · exact iff_of_false nofun (State.fetchInstr_error_ne_none hfetch)
  · rcases exec_cases hexec with ⟨-, -, v, rfl, -⟩ | ⟨-, v, m, rfl, -⟩
    · exact iff_of_false nofun nofun
    · exact hs

theorem step_fitsCells {s t : State} (hw : 41 ≤ s.cfg.cellWidth) (hs : s.FitsCells) (h : step s = .next t) :
    t.FitsCells := by
  rw [State.fitsCells_iff, step_cfg h]
  exact step_holdsEverywhere (fun opd => (sext17_reachable opd).fitsWidth hw)
    (fun _ => absW_fitsWidth (by omega) s.acc) hs h

/-- A write below N lists no cell outside memory. -/
theorem Memory.write_cellsBelow {m : Memory} {n a : Nat} (v : Int) (ha : a < n) (hm : ∀ p ∈ m.cells, p.1 < n) :
    ∀ p ∈ (m.write a v).cells, p.1 < n := by
  intro p hp
  rcases Memory.mem_cells_write hp with ⟨rfl, -⟩ | hlisted
  · exact ha
  · exact hm p hlisted

theorem State.Inv.step {s t : State} (hs : s.Inv) (h : Machine.step s = .next t) : t.Inv := by
  have hcfg := step_cfg h
  obtain ⟨hvalid, hpc, hcause, hwf, hbelow, hfits⟩ := hs
  have ⟨_, _, hw⟩ := hvalid
  obtain ⟨-, hmem⟩ := step_writes h
  exact {
    cfgValid := hcfg ▸ hvalid
    pcInRange := hcfg ▸ step_pc_le h hpc
    causeAgrees := step_causeAgrees hcause h
    memWf := by
      rcases hmem with hm | ⟨a, -, hm⟩ <;> rw [hm]
      · exact hwf
      · exact Memory.write_wf _ _ hwf
    cellsBelowN := by
      rw [State.CellsBelowN, hcfg]
      rcases hmem with hm | ⟨a, ha, hm⟩ <;> rw [hm]
      · exact hbelow
      · exact Memory.write_cellsBelow _ ha hbelow
    fitsCells := step_fitsCells hw hfits h }

/-- A loaded program lists no cell outside its own. -/
theorem State.loaded_cellsBelowN {s : State} {ws : List InsnWord} (hfits : ws.length ≤ s.cfg.memCells) :
    (s.loaded ws).CellsBelowN := by
  intro p hp
  rcases Memory.mem_cells_writeWords hp with hlt | hblank
  · exact (Nat.zero_add ws.length ▸ hlt).trans_le hfits
  · cases hblank

/-- The state of every successful Load, and of reset, meets the invariant. -/
theorem State.loaded_inv {s : State} {ws : List InsnWord} (hvalid : s.cfg.Valid)
    (hfits : ws.length ≤ s.cfg.memCells) : (s.loaded ws).Inv where
  cfgValid := hvalid
  pcInRange := Nat.zero_le _
  causeAgrees := iff_of_true rfl rfl
  memWf := Memory.writeWords_wf ws 0 Memory.blank_wf
  cellsBelowN := State.loaded_cellsBelowN hfits
  fitsCells := by
    obtain ⟨-, -, hw⟩ := hvalid
    exact s.loaded_holdsEverywhere (fun w => (word_reachable w).fitsWidth hw) ws

theorem State.powerOn_inv {c : Config} (hc : c.Valid) : (State.powerOn c).Inv :=
  State.loaded_inv (s := State.powerOn c) (ws := []) hc (Nat.zero_le _)

theorem State.Inv.perform {s : State} (op : BlockOp) (hs : s.Inv) : (s.perform op).2.Inv :=
  State.perform_keeps op (fun _ => State.loaded_inv hs.cfgValid) (fun _ => hs.step) hs

/-- Settles O32: each clause by what `step_writes` says of memory and by its own law of the step. -/
theorem everyStepKeepsTheInvariant : Obligations.EveryStepKeepsTheInvariant :=
  fun _ _ => State.Inv.step

/-- Settles O33: `State.Inv.perform`, and by it any sequence of operations from power-on. -/
theorem everyBlockOperationKeepsTheInvariant : Obligations.EveryBlockOperationKeepsTheInvariant :=
  ⟨fun _ op => State.Inv.perform op,
    fun _ ops hc => State.performAll_keeps (fun _ op => State.Inv.perform op) ops (State.powerOn_inv hc)⟩

/-- Settles O31: reset as the Load of no record. -/
theorem resetMeetsTheInvariant : Obligations.ResetMeetsTheInvariant :=
  ⟨State.powerOn_inv (by decide), State.powerOn_valuesReachable Config.standard⟩

end Sys2Proof.Machine
end

section
/-! SUPPORT. What a step depends on (spec 00_scope.md section 4, 10_state.md sections 1 to 3): states that agree in N,
accumulator, `pc` and memory, and in the absolute value, take the same step, whatever `cause` and W are. -/

namespace Sys2Proof.Machine

/-! ### One instruction in two states -/

/-- Two states whose instructions find the same: N, the accumulator, its absolute value, and memory. -/
structure State.SameOperands (s s' : State) : Prop where
  memCells : s.cfg.memCells = s'.cfg.memCells
  acc : s.acc = s'.acc
  absAcc : absW s.cfg.cellWidth s.acc = absW s'.cfg.cellWidth s'.acc
  mem : s.mem = s'.mem

/-- An instruction leaves the same accumulator and memory in two states in which it finds the same, and raises in both
or completes in both. -/
theorem State.SameOperands.exec {s s' : State} (h : s.SameOperands s') (i : Instr) : ∃ (v : Int) (m : Memory),
    (Machine.exec i s = .next (State.raise { s with acc := v, mem := m } .outOfBoundsAccess) ∧
      Machine.exec i s' = .next (State.raise { s' with acc := v, mem := m } .outOfBoundsAccess)) ∨
    (Machine.exec i s = .next (State.advance { s with acc := v, mem := m }) ∧
      Machine.exec i s' = .next (State.advance { s' with acc := v, mem := m })) := by
  obtain ⟨⟨n, w⟩, acc, pc, halted, cause, mem⟩ := s
  obtain ⟨⟨n', w'⟩, acc', pc', halted', cause', mem'⟩ := s'
  obtain ⟨hN, hacc, habs, hmem⟩ := h
  dsimp only at hN hacc habs hmem
  subst hN hacc hmem
  cases i with
  | loadConst opd => exact ⟨sext17 opd, mem, .inr ⟨exec_loadConst _ _, exec_loadConst _ _⟩⟩
  | loadMem opd =>
    rcases Nat.lt_or_ge (cellAddress opd) n with hin | hout
    · exact ⟨mem.read (cellAddress opd), mem, .inr ⟨exec_loadMem_of_lt hin, exec_loadMem_of_lt hin⟩⟩
    · exact ⟨acc, mem, .inl ⟨exec_loadMem_of_le hout, exec_loadMem_of_le hout⟩⟩
  | storeMem opd =>
    rcases Nat.lt_or_ge (cellAddress opd) n with hin | hout
    · exact ⟨acc, mem.write (cellAddress opd) acc, .inr ⟨exec_storeMem_of_lt hin, exec_storeMem_of_lt hin⟩⟩
    · exact ⟨acc, mem, .inl ⟨exec_storeMem_of_le hout, exec_storeMem_of_le hout⟩⟩
  | abs opd =>
    rcases Nat.lt_or_ge (cellAddress opd) n with hin | hout
    · refine ⟨absW w acc, mem.write (cellAddress opd) (absW w acc), .inr ⟨exec_abs_of_lt hin, ?_⟩⟩
      rw [habs]
      exact exec_abs_of_lt hin
    · refine ⟨absW w acc, mem, .inl ⟨exec_abs_of_le hout, ?_⟩⟩
      rw [habs]
      exact exec_abs_of_le hout

/-! ### Another `cause` -/

/-- Settles O27: the fetch does not see `cause`, and neither does an instruction. -/
theorem causeAffectsNothingElse : Obligations.CauseAffectsNothingElse := by
  intro s c
  rcases Bool.eq_false_or_eq_true s.halted with hhalted | hrun
  · exact ⟨_, _, step_of_halted hhalted, step_of_halted hhalted, rfl⟩
  have hsame : s.SameOperands { s with cause := c } := ⟨rfl, rfl, rfl, rfl⟩
  have hfetchSame : State.fetchInstr { s with cause := c } = s.fetchInstr := State.fetchInstr_congr rfl
  rcases hfetch : s.fetchInstr with e | i
  · exact ⟨_, _, step_of_error hrun hfetch, step_of_error hrun (hfetchSame.trans hfetch), rfl⟩
  · rw [step_of_ok hrun hfetch, step_of_ok (s := { s with cause := c }) hrun (hfetchSame.trans hfetch)]
    obtain ⟨v, m, ⟨hexec, hexec'⟩ | ⟨hexec, hexec'⟩⟩ := hsame.exec i
    · exact ⟨_, _, hexec, hexec', rfl⟩
    · exact ⟨_, _, hexec, hexec', rfl⟩

/-! ### Another width -/

namespace State.EqualButForWidth

theorem withCfg_eq {s s' : State} (h : s.EqualButForWidth s') : s' = { s with cfg := s'.cfg } := by
  obtain ⟨cfg', acc', pc', halted', cause', mem'⟩ := s'
  obtain ⟨-, rfl, rfl, rfl, rfl, rfl⟩ := h
  rfl

theorem sameOperands {s s' : State} (h : s.EqualButForWidth s') (hacc : ReachableValue s.acc)
    (hw : 41 ≤ s.cfg.cellWidth) (hw' : 41 ≤ s'.cfg.cellWidth) : s.SameOperands s' where
  memCells := h.memCells
  acc := h.acc
  absAcc := by rw [← h.acc, hacc.absW_eq hw, hacc.absW_eq hw']
  mem := h.mem

theorem valuesReachable {s s' : State} (h : s.EqualButForWidth s') (hs : s.ValuesReachable) : s'.ValuesReachable := by
  rw [h.withCfg_eq]
  exact hs

theorem fetchInstr {s s' : State} (h : s.EqualButForWidth s') : s.fetchInstr = s'.fetchInstr :=
  State.fetchInstr_congr (h.pc ▸ State.readCell?_congr s.pc h.memCells h.mem)

theorem step {s s' : State} (h : s.EqualButForWidth s') (hacc : ReachableValue s.acc) (hw : 41 ≤ s.cfg.cellWidth)
    (hw' : 41 ≤ s'.cfg.cellWidth) :
    ∃ t t', Machine.step s = .next t ∧ Machine.step s' = .next t' ∧ t.EqualButForWidth t' := by
  rcases hrun : s.halted with _ | _
  · have hrun' : s'.halted = false := h.halted.symm.trans hrun
    rcases hfetch : s.fetchInstr with c | i
    · refine ⟨_, _, step_of_error hrun hfetch, step_of_error hrun' (h.fetchInstr ▸ hfetch), ?_⟩
      exact ⟨h.memCells, h.acc, h.pc, rfl, rfl, h.mem⟩
    · rw [step_of_ok hrun hfetch, step_of_ok hrun' (h.fetchInstr ▸ hfetch)]
      obtain ⟨v, m, ⟨hexec, hexec'⟩ | ⟨hexec, hexec'⟩⟩ := (h.sameOperands hacc hw hw').exec i
      · exact ⟨_, _, hexec, hexec', h.memCells, rfl, h.pc, rfl, rfl, rfl⟩
      · exact ⟨_, _, hexec, hexec', h.memCells, rfl, congrArg (· + 1) h.pc, h.halted, h.cause, rfl⟩
  · exact ⟨s, s', step_of_halted hrun, step_of_halted (h.halted.symm.trans hrun), h⟩

theorem report {s s' : State} (h : s.EqualButForWidth s') : s.report = s'.report := by
  simp only [State.report, h.halted]

theorem snapshot {s s' : State} (h : s.EqualButForWidth s') : s.snapshot = s'.snapshot := by
  simp only [State.snapshot, h.memCells, h.acc, h.pc, h.halted, h.mem]

theorem readCell {s s' : State} (h : s.EqualButForWidth s') (a : Int) : s.readCell a = s'.readCell a := by
  simp only [State.readCell, State.readCell?_congr a.toNat h.memCells h.mem]

theorem loaded {s s' : State} (h : s.EqualButForWidth s') (ws : List InsnWord) :
    (s.loaded ws).EqualButForWidth (s'.loaded ws) :=
  ⟨h.memCells, rfl, rfl, rfl, rfl, rfl⟩

theorem load {s s' : State} (h : s.EqualButForWidth s') (bytes : List Byte) :
    (s.load bytes).1 = (s'.load bytes).1 ∧ (s.load bytes).2.EqualButForWidth (s'.load bytes).2 := by
  simp only [State.load, ← h.memCells]
  rcases programWords bytes with _ | ws
  · exact ⟨rfl, h⟩
  · by_cases hlarge : s.cfg.memCells < ws.length
    · simp only [if_pos hlarge]
      exact ⟨trivial, h⟩
    · simp only [if_neg hlarge]
      exact ⟨trivial, h.loaded ws⟩

/-- Every block operation answers the same on two machines equal but for W, and leaves them so (decision D1). -/
theorem perform {s s' : State} (op : BlockOp) (h : s.EqualButForWidth s') (hacc : ReachableValue s.acc)
    (hw : 41 ≤ s.cfg.cellWidth) (hw' : 41 ≤ s'.cfg.cellWidth) :
    (s.perform op).1 = (s'.perform op).1 ∧ (s.perform op).2.EqualButForWidth (s'.perform op).2 := by
  cases op with
  | reset => exact ⟨rfl, h.loaded []⟩
  | load bytes =>
    obtain ⟨hstatus, hstate⟩ := h.load bytes
    exact ⟨congrArg BlockReply.loaded hstatus, hstate⟩
  | step =>
    obtain ⟨t, t', ht, ht', hequal⟩ := h.step hacc hw hw'
    rw [State.perform_step ht, State.perform_step ht']
    exact ⟨congrArg BlockReply.stepped hequal.report, hequal⟩
  | readCell a => exact ⟨congrArg BlockReply.cell (h.readCell a), h⟩
  | snapshot => exact ⟨congrArg BlockReply.snapshot h.snapshot, h⟩

theorem performAll {s s' : State} (ops : List BlockOp) (h : s.EqualButForWidth s') (hs : s.ValuesReachable)
    (hw : 41 ≤ s.cfg.cellWidth) (hw' : 41 ≤ s'.cfg.cellWidth) :
    (s.performAll ops).EqualButForWidth (s'.performAll ops) := by
  induction ops generalizing s s' with
  | nil => exact h
  | cons op ops ih =>
    have ⟨hacc, _⟩ := hs
    obtain ⟨-, hequal⟩ := h.perform op hacc hw hw'
    exact ih hequal (State.perform_valuesReachable op hw hs) ((s.perform_cfg op).symm ▸ hw)
      ((s'.perform_cfg op).symm ▸ hw')

end State.EqualButForWidth

/-- Settles O35: `State.EqualButForWidth.perform` for one operation, and by induction for a sequence from power-on. -/
theorem everyWidthBehavesTheSame : Obligations.EveryWidthBehavesTheSame := by
  refine ⟨fun s s' op hvalid hs h hw' => ?_, fun n w w' ops hw hw' => ?_⟩
  · obtain ⟨-, -, hw⟩ := hvalid
    have ⟨hacc, _⟩ := hs
    obtain ⟨hreply, hequal⟩ := h.perform op hacc hw hw'
    exact ⟨hreply, hequal, State.perform_valuesReachable op hw hs,
      State.perform_valuesReachable op hw' (h.valuesReachable hs)⟩
  · have hstart : (State.powerOn { memCells := n, cellWidth := w }).EqualButForWidth
        (State.powerOn { memCells := n, cellWidth := w' }) := ⟨rfl, rfl, rfl, rfl, rfl, rfl⟩
    have hend := hstart.performAll ops (State.powerOn_valuesReachable _) hw hw'
    rw [hend.withCfg_eq, State.performAll_cfg]
    rfl

end Sys2Proof.Machine
end

section
/-! SUPPORT. The ends and the paths of a step (spec 40_sequencer.md sections 1 and 2, 60_exceptions.md sections 1 and
2): the condition of each halt cause, the state each path leaves, and what the next step sees of a store. -/

namespace Sys2Proof.Machine

/-! ### The condition of each cause -/

/-- When a fetch ends the run with a cause: R73, R75, R76 and R95, in the order of the checks of R98. -/
def State.FetchHalts (s : State) : Cause → Prop
  | .endOfMemory => s.cfg.memCells ≤ s.pc
  | .endSentinel => s.pc < s.cfg.memCells ∧ s.mem.read s.pc = 0
  | .invalidWord => s.pc < s.cfg.memCells ∧ (s.mem.read s.pc < 0 ∨ 2 ^ 40 ≤ s.mem.read s.pc)
  | .unknownOpcode => s.pc < s.cfg.memCells ∧ ∃ w : InsnWord, s.mem.read s.pc = (w.toNat : Int) ∧ w ≠ 0 ∧
      ∀ i, decode w ≠ .ok i
  | .none => False
  | .outOfBoundsAccess => False

theorem decode_ne_ok_iff {w : InsnWord} :
    (∀ i, decode w ≠ .ok i) ↔ ∀ k, w.toNat % 64 ≠ (operationCode k).toNat := by
  simpa only [not_exists] using not_congr exists_decode_iff

theorem State.fetchInstr_eq_error_iff {s : State} {c : Cause} : s.fetchInstr = .error c ↔ s.FetchHalts c := by
  constructor
  · intro h
    rcases s.fetchInstr_cases with ⟨hend, hf⟩ | ⟨hpc, hzero, hf⟩ | ⟨hpc, hvalue, hf⟩ |
      ⟨w, hpc, hread, hw, hcode, hf⟩ | ⟨w, i, -, -, -, -, hf⟩ <;> cases hf.symm.trans h
    · exact hend
    · exact ⟨hpc, hzero⟩
    · exact ⟨hpc, hvalue⟩
    · exact ⟨hpc, w, hread, hw, decode_ne_ok_iff.mpr (operationOfCode_word_eq_none.mp hcode)⟩
  · intro h
    cases c with
    | none => exact h.elim
    | endOfMemory => exact State.fetchInstr_of_le h
    | endSentinel => exact State.fetchInstr_of_zero h.1 h.2
    | outOfBoundsAccess => exact h.elim
    | unknownOpcode =>
      obtain ⟨hpc, w, hread, hw, hdecode⟩ := h
      exact State.fetchInstr_of_undefined hpc hread (fun h0 => hw (BitVec.eq_of_toNat_eq h0))
        (decode_ne_ok_iff.mp hdecode)
    | invalidWord => exact State.fetchInstr_of_not_word h.1 h.2

/-- A fetch answers an instruction exactly when the cell at `pc` holds its word. -/
theorem State.fetchInstr_eq_ok_iff {s : State} {i : Instr} :
    s.fetchInstr = .ok i ↔ s.pc < s.cfg.memCells ∧ s.mem.read s.pc = ((encode i).toNat : Int) := by
  refine ⟨fun h => ?_, fun ⟨hpc, hread⟩ => State.fetchInstr_of_encode hpc hread⟩
  rcases s.fetchInstr_cases with ⟨-, hf⟩ | ⟨-, -, hf⟩ | ⟨-, -, hf⟩ | ⟨w, -, -, -, -, hf⟩ |
    ⟨w, j, hpc, hread, -, hdecode, hf⟩ <;> cases hf.symm.trans h
  rw [encode_of_decode hdecode]
  exact ⟨hpc, hread⟩

/-- A step takes on a cause of the fetch exactly when the fetch meets that cause's condition. -/
theorem step_cause_iff_fetchHalts {s t : State} {c : Cause} (hrun : s.halted = false) (hstep : step s = .next t)
    (hold : s.cause ≠ c) (hc : c ≠ .outOfBoundsAccess) : t.cause = c ↔ s.FetchHalts c := by
  rw [← State.fetchInstr_eq_error_iff]
  constructor
  · rintro rfl
    exact fetchInstr_of_step_cause hstep hold.symm hc
  · intro hfetch
    cases hstep.symm.trans (step_of_error hrun hfetch)
    rfl

/-- A step takes on OUT_OF_BOUNDS_ACCESS exactly when it fetches an addressed instruction with an operand of N or more
(R94). -/
theorem step_cause_iff_out_of_bounds {s t : State} (hrun : s.halted = false) (hstep : step s = .next t)
    (hold : s.cause ≠ .outOfBoundsAccess) :
    t.cause = .outOfBoundsAccess ↔
      ∃ i, s.fetchInstr = .ok i ∧ i.kind ≠ .loadConst ∧ s.cfg.memCells ≤ i.operand.toNat := by
  rcases step_cases hstep with ⟨hhalted, -⟩ | ⟨-, c, hfetch, rfl⟩ | ⟨-, i, hfetch, hexec⟩
  · cases hrun.symm.trans hhalted
  · refine iff_of_false (fun hc => ?_) (fun ⟨i, hi, _⟩ => by cases hfetch.symm.trans hi)
    exact State.fetchInstr_eq_error_iff.mp (hfetch.trans (congrArg _ hc))
  · rcases exec_cases hexec with ⟨hkind, hout, v, rfl, -⟩ | ⟨hin, v, m, rfl, -⟩
    · exact iff_of_true rfl ⟨i, hfetch, hkind, hout⟩
    · refine iff_of_false hold fun ⟨j, hj, hkind, hout⟩ => ?_
      cases hfetch.symm.trans hj
      exact hin.elim hkind (by omega)

/-- Settles O22: the condition of each cause, `State.FetchHalts` for the four a fetch finds. -/
theorem machineHaltsInExactlyFiveWays : Obligations.MachineHaltsInExactlyFiveWays := by
  intro s t hrun hcause hstep
  have hfetched : ∀ c, c ≠ .none → c ≠ .outOfBoundsAccess → (t.cause = c ↔ s.FetchHalts c) := fun c hc hb =>
    step_cause_iff_fetchHalts hrun hstep (hcause ▸ hc.symm) hb
  have hagrees : t.halted = false ↔ t.cause = .none := step_causeAgrees (iff_of_true hrun hcause) hstep
  refine ⟨hfetched .endOfMemory nofun nofun, hfetched .endSentinel nofun nofun, hfetched .invalidWord nofun nofun,
    hfetched .unknownOpcode nofun nofun, ?_, ?_⟩
  · rw [step_cause_iff_out_of_bounds hrun hstep (hcause ▸ nofun)]
    simp only [State.fetchInstr_eq_ok_iff, and_assoc, exists_and_left]
  · rw [ne_eq, ← hagrees, Bool.not_eq_false]

/-- Settles O20: the condition of INVALID_WORD, in both directions. -/
theorem valueThatIsNoWordHalts : Obligations.ValueThatIsNoWordHalts :=
  ⟨fun _ hrun hpc hvalue => step_of_error hrun (State.fetchInstr_of_not_word hpc hvalue),
    fun _ _ hrun hold hstep hcause => (step_cause_iff_fetchHalts hrun hstep hold nofun).mp hcause⟩

/-! ### Running a word -/

/-- Settles O15: the fetch answers the instruction of the decoded word. -/
theorem stepRunsTheDecodedInstruction : Obligations.StepRunsTheDecodedInstruction :=
  fun _ _ _ hrun hpc hread hdecode =>
    step_of_ok hrun (State.fetchInstr_of_decode hpc hread (decode_of_decodeBytes hdecode))

@[simp] theorem State.withFetchWord_toNat (s : State) (w : InsnWord) : s.withFetchWord 40 w.toNat = s.placeWord w := by
  rw [State.withFetchWord, tableWord_toNat]

/-- The cell a word is placed in: the one at `pc`, in a machine with a cell. -/
theorem State.placeWord_pc_lt {s : State} (w : InsnWord) (h : 1 ≤ s.cfg.memCells) :
    (s.placeWord w).pc < s.cfg.memCells := by
  rw [State.placeWord_pc]
  split_ifs with hpc
  · exact hpc
  · exact h

/-- A placed word is in the cell `pc` addresses, and no other cell changes. -/
theorem State.placeWord_read (s : State) (w : InsnWord) :
    (s.placeWord w).mem.read (s.placeWord w).pc = (w.toNat : Int) ∧
    ∀ a, a ≠ (s.placeWord w).pc → (s.placeWord w).mem.read a = s.mem.read a :=
  ⟨Memory.read_write_same .., fun a ha => Memory.read_write_other _ _ a _ ha⟩

/-- Settles O16: the fetch of the placed word. -/
theorem placedWordIsRunNext : Obligations.PlacedWordIsRunNext := by
  intro s i hN
  rw [State.withFetchWord_toNat]
  obtain ⟨hplaced, hother⟩ := s.placeWord_read (encode i)
  exact ⟨step_of_ok rfl (State.fetchInstr_of_encode (s.placeWord_pc_lt _ hN) hplaced), rfl, hother⟩

/-- A fetched number with the code of an operation runs that operation, on the number's upper 34 bits (R80). -/
theorem step_of_number {s : State} {v : Nat} {k : OperationKind} (hrun : s.halted = false)
    (hpc : s.pc < s.cfg.memCells) (hread : s.mem.read s.pc = (v : Int)) (hv : v < 2 ^ 40)
    (hcode : v % 64 = (operationCode k).toNat) :
    ∃ opd : OperandField, opd.toNat = v / 64 ∧ step s = exec (k.instr opd) s := by
  obtain ⟨w, rfl⟩ : ∃ w : InsnWord, v = w.toNat := ⟨BitVec.ofNat 40 v, (Nat.mod_eq_of_lt hv).symm⟩
  exact ⟨(decodeFields w).2, decodeFields_opd_toNat w,
    step_of_ok hrun (State.fetchInstr_of_decode hpc hread (decode_of_code hcode))⟩

/-- Settles O23: the three ends of the fetch, the undefined code, and each operation in bounds and out of them. -/
theorem stepFollowsTheEffectTable : Obligations.StepFollowsTheEffectTable := by
  intro s hrun _
  refine ⟨fun hend => step_of_error hrun (State.fetchInstr_of_le hend), fun hpc =>
    ⟨fun hzero => step_of_error hrun (State.fetchInstr_of_zero hpc hzero),
      fun hvalue => step_of_error hrun (State.fetchInstr_of_not_word hpc hvalue), fun v hread hpos hv => ?_⟩⟩
  have hruns := fun (k : OperationKind) => step_of_number (k := k) hrun hpc hread hv
  refine ⟨fun h58 h19 h24 h7 => ?_, fun hcode => ?_, fun hcode hout => ?_, fun hcode hin => ?_,
    fun hcode hout => ?_, fun hcode hin => ?_, fun hcode hout => ?_, fun hcode hin => ?_⟩
  · have hword : (BitVec.ofNat 40 v).toNat = v := Nat.mod_eq_of_lt hv
    refine step_of_undefined (w := BitVec.ofNat 40 v) hrun hpc ?_ ?_ ?_ <;> rw [hword]
    · exact hread
    · exact hpos.ne'
    · exact ne_operationCode_of_undefined h58 h19 h24 h7
  · obtain ⟨opd, hopd, hstep⟩ := hruns .loadConst hcode
    rw [hstep, ← hopd, ← sext17_eq]
    exact exec_loadConst opd s
  · obtain ⟨opd, hopd, hstep⟩ := hruns .loadMem hcode
    rw [← hopd] at hout
    exact hstep.trans (exec_loadMem_of_le hout)
  · obtain ⟨opd, hopd, hstep⟩ := hruns .loadMem hcode
    rw [← hopd] at hin ⊢
    exact hstep.trans (exec_loadMem_of_lt hin)
  · obtain ⟨opd, hopd, hstep⟩ := hruns .storeMem hcode
    rw [← hopd] at hout
    exact hstep.trans (exec_storeMem_of_le hout)
  · obtain ⟨opd, hopd, hstep⟩ := hruns .storeMem hcode
    rw [← hopd] at hin ⊢
    exact hstep.trans (exec_storeMem_of_lt hin)
  · obtain ⟨opd, hopd, hstep⟩ := hruns .abs hcode
    rw [← hopd] at hout
    exact hstep.trans (exec_abs_of_le hout)
  · obtain ⟨opd, hopd, hstep⟩ := hruns .abs hcode
    rw [← hopd] at hin ⊢
    exact hstep.trans (exec_abs_of_lt hin)

/-! ### Out of bounds -/

/-- ReadCell of a cell index is the checked read (R32). -/
theorem State.readCell_natCast (s : State) (a : Nat) : s.readCell (a : Int) = s.readCell? a := by
  rw [State.readCell, if_neg (by omega), Int.toNat_natCast]

/-- Out of bounds an addressed instruction raises, whatever memory holds, and has written the accumulator at most, and
that only if it is an Abs (R94, R97). -/
theorem exec_out_of_bounds_any_mem {i : Instr} {s : State} (hkind : i.kind ≠ .loadConst)
    (hout : s.cfg.memCells ≤ i.operand.toNat) : ∃ v, (i.kind ≠ .abs → v = s.acc) ∧
      ∀ m, exec i { s with mem := m } = .next (State.raise { s with acc := v, mem := m } .outOfBoundsAccess) := by
  by_cases habs : i.kind = .abs
  · exact ⟨absW s.cfg.cellWidth s.acc, fun hnot => absurd habs hnot,
      fun m => (exec_of_out_of_bounds (s := { s with mem := m }) hkind hout).2 habs⟩
  · exact ⟨s.acc, fun _ => rfl, fun m => (exec_of_out_of_bounds (s := { s with mem := m }) hkind hout).1 habs⟩

/-- A step that halts with OUT_OF_BOUNDS_ACCESS leaves its instruction in the cell at `pc` (R94). -/
theorem faulting_instruction_at_pc {s t : State} (hrun : s.halted = false) (hstep : step s = .next t)
    (hhalt : t.halted = true) (hcause : t.cause = .outOfBoundsAccess) :
    ∃ i : Instr, t.readCell t.pc = some ((encode i).toNat : Int) ∧ t.cfg.memCells ≤ i.operand.toNat := by
  rcases step_cases hstep with ⟨hhalted, -⟩ | ⟨-, c, hfetch, rfl⟩ | ⟨-, i, hfetch, hexec⟩
  · cases hrun.symm.trans hhalted
  · exact (State.fetchInstr_eq_error_iff.mp (hfetch.trans (congrArg _ hcause))).elim
  · obtain ⟨hkind, hout, -⟩ := out_of_bounds_of_exec_halts hrun hexec hhalt
    obtain ⟨v, -, hraises⟩ := exec_out_of_bounds_any_mem hkind hout
    cases hexec.symm.trans (hraises s.mem)
    refine ⟨i, ?_, hout⟩
    rw [State.readCell_natCast]
    exact State.readCell?_eq_some.mpr (State.fetchInstr_eq_ok_iff.mp hfetch)

/-- Settles O7: `exec_out_of_bounds_any_mem`, and the instruction found again at `pc`. -/
theorem outOfBoundsOperandHaltsWithoutAnAccess : Obligations.OutOfBoundsOperandHaltsWithoutAnAccess := by
  refine ⟨fun i s hkind hout => ?_, fun i s m hkind hout => ?_, fun i s hkind hvalid hlarge => ?_,
    fun s t hrun hstep hhalt hcause => ?_⟩
  · obtain ⟨v, hacc, hraises⟩ := exec_out_of_bounds_any_mem hkind hout
    exact ⟨_, hraises s.mem, rfl, rfl, rfl, rfl, rfl, hacc⟩
  · obtain ⟨v, -, hraises⟩ := exec_out_of_bounds_any_mem hkind hout
    exact ⟨_, hraises s.mem, hraises m⟩
  · obtain ⟨-, hN, -⟩ := hvalid
    obtain ⟨v, -, hraises⟩ := exec_out_of_bounds_any_mem (s := s) hkind (hN.trans hlarge)
    exact ⟨_, hraises s.mem, rfl, rfl⟩
  · obtain ⟨i, hread, hout⟩ := faulting_instruction_at_pc hrun hstep hhalt hcause
    exact ⟨encode i, i, hread, decode_encode i, by rw [decodeFields_encode], hout⟩

/-! ### The step after a store -/

/-- `t` follows `s` by a step that has stored `v` into cell `a`. -/
structure State.HasStored (s t : State) (a : Nat) (v : Int) : Prop where
  inBounds : a < t.cfg.memCells
  pc : t.pc = s.pc + 1
  halted : t.halted = s.halted
  read : t.mem.read a = v

theorem exec_storeMem_hasStored {opd : OperandField} {s t : State} (hin : opd.toNat < s.cfg.memCells)
    (h : exec (.storeMem opd) s = .next t) : s.HasStored t opd.toNat s.acc := by
  cases (exec_storeMem_of_lt hin).symm.trans h
  exact ⟨hin, rfl, rfl, Memory.read_write_same ..⟩

theorem exec_abs_hasStored {opd : OperandField} {s t : State} (hin : opd.toNat < s.cfg.memCells)
    (h : exec (.abs opd) s = .next t) : s.HasStored t opd.toNat (absW s.cfg.cellWidth s.acc) := by
  cases (exec_abs_of_lt hin).symm.trans h
  exact ⟨hin, rfl, rfl, Memory.read_write_same ..⟩

/-- LoadMem and ReadCell of the cell find the stored value (R42). -/
theorem State.HasStored.loaded {s t : State} {opd : OperandField} {v : Int} (h : s.HasStored t opd.toNat v) :
    exec (.loadMem opd) t = .next { t with acc := v, pc := s.pc + 2 } ∧ t.readCell opd.toNat = some v := by
  obtain ⟨hin, hpc, -, hread⟩ := h
  constructor
  · rw [exec_loadMem_of_lt hin, cellAddress, hread, State.setAcc, State.advance, hpc]
  · rw [State.readCell_natCast]
    exact State.readCell?_eq_some.mpr ⟨hin, hread⟩

/-- A word stored into the next cell is the one the next step runs. -/
theorem State.HasStored.fetched {s t : State} {j : Instr} (h : s.HasStored t (s.pc + 1) ((encode j).toNat : Int))
    (hrun : s.halted = false) : step t = exec j t := by
  obtain ⟨hin, hpc, hhalted, hread⟩ := h
  rw [← hpc] at hin hread
  exact step_of_ok (hhalted.trans hrun) (State.fetchInstr_of_encode hin hread)

/-- Settles O39: `exec_storeMem_hasStored` and `exec_abs_hasStored`, with what the next step finds. -/
theorem nextStepSeesTheStore : Obligations.NextStepSeesTheStore := by
  refine ⟨fun opd s t hin hexec => (exec_storeMem_hasStored hin hexec).loaded,
    fun opd s t hin hexec => (exec_abs_hasStored hin hexec).loaded,
    fun opd s t j hrun hpc hnext hexec hword => ?_, fun opd s t j hrun hpc hnext hexec hword => ?_⟩
  · have hstored := exec_storeMem_hasStored (by omega) hexec
    rw [hnext, hword] at hstored
    exact hstored.fetched hrun
  · have hstored := exec_abs_hasStored (by omega) hexec
    rw [hnext, hword] at hstored
    exact hstored.fetched hrun

end Sys2Proof.Machine
end

section
/-! SUPPORT. Runs and halting (spec 10_state.md sections 2 and 6, 40_sequencer.md section 2, 60_exceptions.md sections 2
and 3): what a step reports, that a halted machine stays as it is, and that every run halts. -/

namespace Sys2Proof.Machine

/-! ### The report -/

theorem State.report_eq_halted_iff {s : State} : s.report = .halted ↔ s.halted = true := by
  rcases hs : s.halted with _ | _
  · rw [State.report_of_running hs]
    exact iff_of_false nofun nofun
  · rw [State.report_of_halted hs]
    exact iff_of_true rfl rfl

theorem State.report_eq_stepped_iff {s : State} : s.report = .stepped ↔ s.halted = false := by
  rcases hs : s.halted with _ | _
  · rw [State.report_of_running hs]
    exact iff_of_true rfl rfl
  · rw [State.report_of_halted hs]
    exact iff_of_false nofun nofun

/-- A machine that runs after a step ran before it, and `pc` has advanced. -/
theorem step_running_iff {s t : State} (h : step s = .next t) :
    t.halted = false ↔ s.halted = false ∧ t.halted = false ∧ t.pc = s.pc + 1 := by
  refine ⟨fun hrun => ?_, fun ⟨_, hrun, _⟩ => hrun⟩
  rcases hs : s.halted with _ | _
  · rcases step_pc_cases hs h with ⟨-, hpc, -⟩ | ⟨hhalted, -⟩
    · exact ⟨rfl, hrun, hpc⟩
    · cases hrun.symm.trans hhalted
  · cases (step_of_halted hs).symm.trans h
    cases hrun.symm.trans hs

/-- Settles O28: a step answers by `step_next`, and its report is read from `halted`. -/
theorem everyStepReports : Obligations.EveryStepReports := by
  intro s
  obtain ⟨t, hstep⟩ := step_next s
  exact ⟨t, hstep, State.perform_step hstep, State.report_eq_stepped_iff.trans (step_running_iff hstep),
    State.report_eq_halted_iff⟩

/-! ### The halted machine -/

theorem State.perform_step_of_halted {s : State} (h : s.halted = true) : s.perform .step = (.stepped .halted, s) := by
  rw [State.perform_step (step_of_halted h), State.report_of_halted h]

/-- No operation but Load and reset changes a halted machine (R20, R99). -/
theorem State.performAll_of_halted {s : State} {ops : List BlockOp} (h : s.halted = true)
    (hkeep : ops.all BlockOp.keepsProgram = true) : s.performAll ops = s := by
  induction ops with
  | nil => rfl
  | cons op ops ih =>
    obtain ⟨hop, hops⟩ : op.keepsProgram = true ∧ ops.all BlockOp.keepsProgram = true := by simpa using hkeep
    have hhead : (s.perform op).2 = s := by
      cases op with
      | reset => cases hop
      | load bytes => cases hop
      | step => rw [State.perform_step_of_halted h]
      | readCell a => rfl
      | snapshot => rfl
    rw [State.performAll_cons, hhead, ih hops]

/-- Settles O26: `State.performAll_of_halted`. -/
theorem haltedMachineIsLeftOnlyByLoadOrReset : Obligations.HaltedMachineIsLeftOnlyByLoadOrReset := by
  refine ⟨fun s ops => State.performAll_of_halted, fun s => State.perform_step_of_halted, ?_⟩
  rintro s t ops hkeep rfl h
  rwa [State.performAll_of_halted h hkeep]

/-! ### Runs -/

theorem core_run_of_halted {s : State} (h : s.halted = true) (n : Nat) : Sys2Proof.core.run n s = .next s := by
  induction n with
  | zero => rfl
  | succ n ih => rw [core_run_succ n (step_of_halted h), ih]

/-- A step of a running machine halts it, or adds one to `pc` and began below N. -/
theorem step_halts_or_advances {s t : State} (hrun : s.halted = false) (h : step s = .next t) :
    t.halted = true ∨ (t.halted = false ∧ t.pc = s.pc + 1 ∧ s.pc < s.cfg.memCells) :=
  (step_pc_cases hrun h).symm.imp_left And.left

/-- A run of one step more than there are cells from `pc` on halts (R82). -/
theorem core_run_halts {s : State} {n : Nat} (hn : s.cfg.memCells ≤ s.pc + n) :
    ∃ t : State, Sys2Proof.core.run (n + 1) s = .next t ∧ t.halted = true := by
  induction n generalizing s with
  | zero =>
    obtain ⟨t, hstep, hhalted⟩ := step_halts_of_le (s := s) hn
    exact ⟨t, core_run_succ 0 hstep, hhalted⟩
  | succ n ih =>
    rcases hs : s.halted with _ | _
    · obtain ⟨t, hstep⟩ := step_next s
      rw [core_run_succ (n + 1) hstep]
      rcases step_halts_or_advances hs hstep with hhalted | ⟨-, hpc, -⟩
      · exact ⟨t, core_run_of_halted hhalted _, hhalted⟩
      · exact ih (by rw [step_cfg hstep, hpc]; omega)
    · exact ⟨s, core_run_of_halted hs _, hs⟩

/-- Settles O29: the bound of `core_run_halts` at N - pc. -/
theorem everyRunHalts : Obligations.EveryRunHalts :=
  ⟨fun _ _ => step_halts_or_advances, fun _ => core_run_halts (by omega)⟩

/-! ### The driving loop -/

theorem State.runAtMost_of_halts {s t : State} (budget : Nat) (h : step s = .next t) (hhalted : t.halted = true) :
    s.runAtMost (budget + 1) = t := by
  simp only [State.runAtMost, h, hhalted, if_true]

theorem State.runAtMost_of_runs {s t : State} (budget : Nat) (h : step s = .next t) (hrun : t.halted = false) :
    s.runAtMost (budget + 1) = t.runAtMost budget := by
  simp [State.runAtMost, h, hrun]

/-- `n` Step requests, one after another. -/
def State.afterSteps (s : State) (n : Nat) : State :=
  s.performAll (List.replicate n .step)

theorem State.afterSteps_succ {s t : State} (n : Nat) (h : step s = .next t) :
    s.afterSteps (n + 1) = t.afterSteps n := by
  rw [State.afterSteps, List.replicate_succ, State.performAll_cons, State.perform_step h, State.afterSteps]

theorem State.afterSteps_of_halted {s : State} (h : s.halted = true) (n : Nat) : s.afterSteps n = s :=
  State.performAll_of_halted h (by simp [BlockOp.keepsProgram])

/-- The loop stops in state `t`: the first halted one of the run, reached by `n + 1` requests. -/
structure State.StopsAfter (s t : State) (n : Nat) : Prop where
  halted : t.halted = true
  runs : ∀ m, m ≤ n → (s.afterSteps m).halted = false
  stays : ∀ m, n + 1 ≤ m → s.afterSteps m = t

theorem State.StopsAfter.of_halts {s t : State} (hs : s.halted = false) (h : step s = .next t)
    (hhalted : t.halted = true) : s.StopsAfter t 0 where
  halted := hhalted
  runs m hm := by
    obtain rfl := Nat.le_zero.mp hm
    exact hs
  stays m hm := by
    obtain ⟨k, rfl⟩ := Nat.exists_eq_add_of_le' hm
    rw [State.afterSteps_succ k h, State.afterSteps_of_halted hhalted]

theorem State.StopsAfter.step {s t u : State} {n : Nat} (hs : s.halted = false) (h : Machine.step s = .next t)
    (ht : t.StopsAfter u n) : s.StopsAfter u (n + 1) where
  halted := ht.halted
  runs m hm := by
    cases m with
    | zero => exact hs
    | succ m => exact State.afterSteps_succ m h ▸ ht.runs m (by omega)
  stays m hm := by
    obtain ⟨k, rfl⟩ := Nat.exists_eq_add_of_le' hm
    exact (State.afterSteps_succ (k + (n + 1)) h).trans (ht.stays _ (by omega))

/-- With a budget beyond the cells from `pc` on, the loop stops in the first halted state (R82, R106). -/
theorem State.runAtMost_stops {s : State} {budget : Nat} (hs : s.halted = false)
    (hbudget : s.cfg.memCells ≤ s.pc + budget) :
    ∃ n, n ≤ budget ∧ s.StopsAfter (s.runAtMost (budget + 1)) n := by
  induction budget generalizing s with
  | zero =>
    obtain ⟨t, hstep, hhalted⟩ := step_halts_of_le (s := s) hbudget
    rw [State.runAtMost_of_halts 0 hstep hhalted]
    exact ⟨0, le_rfl, .of_halts hs hstep hhalted⟩
  | succ budget ih =>
    obtain ⟨t, hstep⟩ := step_next s
    rcases step_halts_or_advances hs hstep with hhalted | ⟨hrun, hpc, -⟩
    · rw [State.runAtMost_of_halts (budget + 1) hstep hhalted]
      exact ⟨0, Nat.zero_le _, .of_halts hs hstep hhalted⟩
    · rw [State.runAtMost_of_runs (budget + 1) hstep hrun]
      obtain ⟨n, hn, hstops⟩ := ih hrun (by rw [step_cfg hstep, hpc]; omega)
      exact ⟨n + 1, Nat.succ_le_succ hn, hstops.step hs hstep⟩

/-- Settles O30: `State.runAtMost_stops` with the budget of the loop. -/
theorem drivingLoopStopsAtTheFirstHalt : Obligations.DrivingLoopStopsAtTheFirstHalt := by
  intro s hs
  obtain ⟨n, hn, hhalted, hruns, hstays⟩ :=
    State.runAtMost_stops (budget := s.cfg.memCells - s.pc) hs (by omega)
  exact ⟨n, hn, (hstays (n + 1) le_rfl).symm, hhalted, hruns, hstays⟩

end Sys2Proof.Machine
end

section
/-! SUPPORT. The block's boundary (spec 10_state.md sections 2, 5 and 6, 70_reset_and_hazards.md sections 1 and 2): what
the host reads, what reset and Load leave, and the codes of the halt causes. -/

namespace Sys2Proof.Machine

/-! ### Observation -/

/-- Settles O40: a non-negative address is a cell index, and the checked read bounds it. -/
theorem readCellAnswersOrIsAbsent : Obligations.ReadCellAnswersOrIsAbsent := by
  intro s a
  have habsent : s.readCell a = none → s.perform (.readCell a) = (.cell none, s) := fun h => by rw [State.perform, h]
  refine ⟨fun hnonneg hin => ?_, fun hout => habsent ?_⟩
  · obtain ⟨n, rfl⟩ := Int.eq_ofNat_of_zero_le hnonneg
    rw [State.perform, State.readCell_natCast, State.readCell?_eq_some.mpr ⟨by omega, rfl⟩, Int.toNat_natCast]
  · by_cases hneg : a < 0
    · exact if_pos hneg
    · obtain ⟨n, rfl⟩ := Int.eq_ofNat_of_zero_le (not_lt.mp hneg)
      rw [State.readCell_natCast, State.readCell?_eq_none]
      omega

/-- The cells of a snapshot are those of memory, below N (R33). -/
theorem State.snapshot_cells (s : State) {a : Nat} (h : a < s.cfg.memCells) :
    s.snapshot.cells[a]? = some (s.mem.read a) := by
  simp [State.snapshot, h]

theorem State.snapshot_cells_length (s : State) : s.snapshot.cells.length = s.cfg.memCells := by
  simp [State.snapshot]

/-- Settles O41: the fields of a snapshot. -/
theorem snapshotCopiesTheState : Obligations.SnapshotCopiesTheState := fun s =>
  ⟨s.snapshot, rfl, rfl, rfl, rfl, s.snapshot_cells_length, fun _ => s.snapshot_cells, fun _ => rfl⟩

/-! ### Reset and Load -/

/-- Every cell of a machine after reset reads 0 (R27). -/
theorem State.powerOn_readCell (c : Config) {a : Nat} (h : a < c.memCells) :
    (State.powerOn c).readCell a = some 0 := by
  rw [State.readCell_natCast]
  exact State.readCell?_eq_some.mpr ⟨h, Memory.read_blank a⟩

/-- Settles O42: the reset values, the sentinel in cell 0, and the Load of no record. -/
theorem resetClearsTheState : Obligations.ResetClearsTheState := by
  refine ⟨fun s => rfl, fun c => ⟨rfl, rfl, rfl, rfl, fun a => State.powerOn_readCell c, fun hN => ?_⟩, rfl, fun s => ?_⟩
  · exact step_of_error rfl (State.fetchInstr_of_zero hN rfl)
  · rw [← State.loaded_nil]
    exact State.load_of_programWords rfl (Nat.zero_le _)

/-- A program of more than N records does not load (R112). -/
theorem State.load_of_tooLarge {s : State} {bytes : List Byte} {ws : List InsnWord}
    (h : programWords bytes = some ws) (hlarge : s.cfg.memCells < ws.length) :
    s.load bytes = (.programTooLarge, s) := by
  simp only [State.load, h, if_pos hlarge]

/-- Bytes whose length is a multiple of 5 are a program of a fifth as many records (R67). -/
theorem exists_programWords {bytes : List Byte} (h : bytes.length % 5 = 0) :
    ∃ ws, programWords bytes = some ws ∧ ws.length = bytes.length / 5 := by
  rcases programWords_cases bytes with ⟨hlen, -⟩ | ⟨ws, hws, hlen⟩
  · exact absurd h hlen
  · exact ⟨ws, hws, by omega⟩

/-- Settles O48: the length is checked before the size. -/
theorem programTooLargeLeavesTheState : Obligations.ProgramTooLargeLeavesTheState := by
  refine fun s bytes hlarge => ⟨fun hlen => ?_, malformedProgramLeavesTheState s bytes⟩
  obtain ⟨ws, hws, hcount⟩ := exists_programWords hlen
  rw [State.perform, State.load_of_tooLarge hws (hcount ▸ hlarge)]

/-- Settles O45: the records of the program by `getD_of_programWords`, each as a number. -/
theorem loadWritesTheRecordsFromCellZero : Obligations.LoadWritesTheRecordsFromCellZero := by
  intro s bytes hlen hfits
  obtain ⟨ws, hws, hcount⟩ := exists_programWords hlen
  have hload := State.load_of_programWords (s := s) hws (hcount ▸ hfits)
  refine ⟨s.loaded ws, by rw [State.perform, hload], rfl, rfl, rfl, rfl, rfl, fun i hi => ?_, fun i hi => ?_⟩
  · rw [← hcount] at hi
    rw [s.loaded_read_of_lt hi, getD_of_programWords hws hi, recordWord_toNat]
  · exact s.loaded_read_of_le (hcount ▸ hi)

/-! ### The codes of the causes -/

/-- The cause with a code; 6 and 7, which no cause has, are read as NONE. -/
def Cause.ofCode (b : BitVec 3) : Cause :=
  if b = 1#3 then .endOfMemory
  else if b = 2#3 then .endSentinel
  else if b = 3#3 then .outOfBoundsAccess
  else if b = 4#3 then .unknownOpcode
  else if b = 5#3 then .invalidWord
  else .none

theorem Cause.ofCode_code : Function.LeftInverse Cause.ofCode Cause.code := fun c => by cases c <;> rfl

theorem Cause.isCleanEnd_iff (c : Cause) : c.isCleanEnd = true ↔ c.code = 1#3 ∨ c.code = 2#3 := by
  cases c <;> decide

theorem Cause.isFault_iff (c : Cause) : c.isFault = true ↔ c.code = 3#3 ∨ c.code = 4#3 ∨ c.code = 5#3 := by
  cases c <;> decide

/-- Settles O51: the codes have an inverse, and both kinds are read from them. -/
theorem causeCodesAndKinds : Obligations.CauseCodesAndKinds := by
  refine ⟨rfl, rfl, rfl, rfl, rfl, rfl, fun _ _ h => Cause.ofCode_code.injective h, Cause.isCleanEnd_iff,
    Cause.isFault_iff, fun s => ?_⟩
  rw [State.WithoutFault, ← Bool.not_eq_true, Cause.isFault_iff, not_or, not_or]

end Sys2Proof.Machine
end

section
/-! SUPPORT. The toolchain against the machine (spec 30_encoding.md sections 3 and 4): which records are accepted, which
instructions a toolchain emits, what disassembly gives back, and the fetch of an assembled program. -/

namespace Sys2Proof.Machine

/-! ### Acceptance -/

/-- The range of R64 for LoadConst, and of R65 for the other three. -/
theorem operandInRange_iff {k : OperationKind} {v : Int} :
    operandInRange k v = true ↔
      (k = .loadConst → -65536 ≤ v ∧ v ≤ 131071) ∧ (k ≠ .loadConst → 0 ≤ v ∧ v ≤ 0x7FFFFFFF) := by
  by_cases hk : k = .loadConst
  · subst hk
    simp [operandInRange_loadConst]
  · simp [operandInRange_address hk, hk]

/-- Settles O60: `validate_cases` and its converse, and the error of a record of another shape. -/
theorem malformedRecordFailsValidation : Obligations.MalformedRecordFailsValidation := by
  refine ⟨fun r i hvalid => ?_, fun k v hconst haddress => ?_, fun r hshape => ?_⟩
  · obtain ⟨k, v, rfl, hin, rfl⟩ := validate_cases hvalid
    exact ⟨k, v, rfl, rfl, rfl, OperationKind.kind_instr .., operandInRange_iff.mp hin⟩
  · obtain ⟨opd, hvalid, -⟩ := validate_of_inRange (operandInRange_iff.mpr ⟨hconst, haddress⟩)
    exact ⟨_, hvalid, OperationKind.kind_instr ..⟩
  · have herr := validate_of_malformed (fields?_eq_none.mpr hshape)
    refine ⟨_, ?_, herr, fun rs rest is hok => ?_, fun rs rest => ?_⟩
    · rcases Config.malformedRecordError r with _ | _ | _ <;> simp
    · exact assemble_of_error (validateAll_of_first_error rest hok herr)
    · exact assemble_error_of_mem (by simp) herr

/-! ### The instructions a toolchain emits -/

theorem wellFormed_iff (i : Instr) :
    i.wellFormed = true ↔
      (i.kind = .loadConst → i.operand.toNat < 2 ^ 17) ∧ (i.kind ≠ .loadConst → i.operand.toNat < 2 ^ 31) := by
  cases i <;> simp [Instr.wellFormed, Instr.kind, Instr.operand]

/-- An operand that is not negative is carried as it is (R64, R65). -/
theorem normalizedOperand_of_nonneg (k : OperationKind) {v : Int} (h : 0 ≤ v) : normalizedOperand k v = v := by
  by_cases hk : k = .loadConst
  · subst hk
    exact if_neg (not_lt.mpr h)
  · exact normalizedOperand_address v hk

/-- What a toolchain emits is well-formed (R59). -/
theorem wellFormed_of_validate {r : TextRecord} {i : Instr} (h : validate r = .ok i) : i.wellFormed = true := by
  obtain ⟨k, v, rfl, hin, rfl⟩ := validate_cases h
  have hopd := operandField_normalizedOperand hin
  rw [wellFormed_iff, OperationKind.kind_instr, OperationKind.operand_instr]
  refine ⟨fun hk => ?_, fun hk => ?_⟩
  · subst hk
    obtain ⟨-, hhigh⟩ := normalizedOperand_loadConst_bounds hin
    omega
  · obtain ⟨-, hhigh⟩ := normalizedOperand_address_bounds hk hin
    omega

/-- The record of an instruction with its operand as an unsigned number gives that instruction, if it is well-formed. -/
theorem validate_of_wellFormed {i : Instr} (h : i.wellFormed = true) :
    validate (textRecord i.kind i.operand.toNat) = .ok i := by
  obtain ⟨hconst, haddress⟩ := (wellFormed_iff i).mp h
  have hin : operandInRange i.kind i.operand.toNat = true := by
    rw [operandInRange_iff]
    refine ⟨fun hk => ?_, fun hk => ?_⟩
    · have hbound := hconst hk
      constructor <;> omega
    · have hbound := haddress hk
      constructor <;> omega
  obtain ⟨opd, hvalid, hopd⟩ := validate_of_inRange hin
  rw [normalizedOperand_of_nonneg _ (Int.natCast_nonneg _)] at hopd
  obtain rfl : opd = i.operand := BitVec.eq_of_toNat_eq (Int.ofNat_inj.mp hopd)
  rw [hvalid, Instr.instr_kind_operand]

/-- Settles O58: `validate_of_wellFormed` and its converse. -/
theorem toolchainEmitsTheWellFormedInstructions : Obligations.ToolchainEmitsTheWellFormedInstructions :=
  fun _ => ⟨fun h => ⟨_, validate_of_wellFormed h⟩, fun ⟨_, hvalid⟩ => wellFormed_of_validate hvalid⟩

/-! ### Disassembly -/

theorem disassemble_encodeBytes (i : Instr) :
    disassemble (encodeBytes i) = some (.known i.kind, disassembledOperand (operationCode i.kind) i.operand) := by
  rw [encodeBytes, disassemble_wordRecord, disassembleWord_encode]

theorem disassembledOperand_address {k : OperationKind} (opd : OperandField) (hk : k ≠ .loadConst) :
    disassembledOperand (operationCode k) opd = (opd.toNat : Int) :=
  if_neg fun hcode => hk (by
    have hsome := operationOfCode_operationCode k
    rw [hcode] at hsome
    exact (Option.some.inj hsome).symm)

/-- `sext_17` undoes the fold of a LoadConst up to 65535, and above it gives the operand less 2^17 (R70). -/
theorem sext17_of_fold {v : Int} {opd : OperandField} (hlow : -65536 ≤ v) (hhigh : v ≤ 131071)
    (hopd : (opd.toNat : Int) = normalizedOperand .loadConst v) :
    sext17 opd = if v ≤ 65535 then v else v - 131072 := by
  rw [sext17_eq]
  simp only [normalizedOperand, fold17] at hopd
  split at hopd <;> split_ifs <;> omega

/-- The operand that comes back from assembly and disassembly is the one written, but for a LoadConst above 65535. -/
theorem disassembledOperand_eq_iff {k : OperationKind} {v : Int} {opd : OperandField}
    (hin : operandInRange k v = true) (hopd : (opd.toNat : Int) = normalizedOperand k v) :
    disassembledOperand (operationCode k) opd = v ↔ (k = .loadConst → v ≤ 65535) := by
  by_cases hk : k = .loadConst
  · subst hk
    obtain ⟨hlow, hhigh⟩ := operandInRange_loadConst.mp hin
    have hsext : disassembledOperand (operationCode .loadConst) opd = sext17 opd := rfl
    rw [hsext, sext17_of_fold hlow hhigh hopd]
    split_ifs with hv <;> simp [hv]
  · rw [disassembledOperand_address opd hk, hopd, normalizedOperand_address v hk]
    exact iff_of_true rfl fun hconst => absurd hconst hk

/-- A negative LoadConst and the positive one of the same fold are the same instruction (R70, 90_conflicts.md C2). -/
theorem validate_loadConst_fold {v : Int} (hlow : 65536 ≤ v) (hhigh : v ≤ 131071) :
    validate (textRecord .loadConst (v - 131072)) = validate (textRecord .loadConst v) := by
  have hfold : normalizedOperand .loadConst (v - 131072) = normalizedOperand .loadConst v := by
    rw [normalizedOperand_of_nonneg .loadConst (v := v) (by omega), normalizedOperand, fold17, if_pos (by omega)]
    omega
  rw [validate_textRecord, validate_textRecord, if_pos (operandInRange_loadConst.mpr ⟨by omega, by omega⟩),
    if_pos (operandInRange_loadConst.mpr ⟨by omega, hhigh⟩), hfold]

/-- Settles O57: `disassembledOperand_eq_iff`, and the shared instruction of `validate_loadConst_fold`. -/
theorem symbolicRoundTripAndItsException : Obligations.SymbolicRoundTripAndItsException := by
  refine ⟨fun k v i hvalid => ?_, fun v hlow hhigh => ?_⟩
  · by_cases hin : operandInRange k v = true
    · obtain ⟨opd, hvalid', hopd⟩ := validate_of_inRange hin
      cases hvalid'.symm.trans hvalid
      rw [disassemble_encodeBytes, OperationKind.kind_instr, OperationKind.operand_instr,
        ← disassembledOperand_eq_iff hin hopd]
      simp
    · cases (validate_of_not_inRange hin).symm.trans hvalid
  · obtain ⟨opd, hvalid, hopd⟩ :=
      validate_of_inRange (operandInRange_loadConst.mpr ⟨by omega, hhigh⟩ : operandInRange .loadConst v = true)
    have hsext : sext17 opd = v - 131072 := by
      rw [sext17_of_fold (by omega) hhigh hopd, if_neg (by omega)]
    refine ⟨.loadConst opd, hvalid, (validate_loadConst_fold hlow hhigh).trans hvalid, ?_,
      fun s => ⟨_, exec_loadConst opd s, hsext⟩⟩
    rw [← hsext]
    exact disassemble_encodeBytes (.loadConst opd)

/-! ### From text to execution -/

/-- The fetch from a loaded program of instructions: the instruction of the cell, and the sentinel after the last. -/
theorem fetchInstr_of_loaded {s u : State} {is : List Instr} (hfits : is.length ≤ u.cfg.memCells)
    (hmem : u.mem = (s.loaded (is.map encode)).mem) :
    (∀ i, is[u.pc]? = some i → u.fetchInstr = .ok i) ∧
    (is.length ≤ u.pc → u.pc < u.cfg.memCells → u.fetchInstr = .error .endSentinel) := by
  refine ⟨fun i hi => ?_, fun hpast hpc => State.fetchInstr_of_zero hpc ?_⟩
  · obtain ⟨hpc, -⟩ := List.getElem?_eq_some_iff.mp hi
    refine State.fetchInstr_of_encode (hpc.trans_le hfits) ?_
    rw [hmem, State.loaded_read]
    simp [hi]
  · rw [hmem]
    exact s.loaded_read_of_le (by simpa using hpast)

/-- Settles O59: assembly gives the records of the instructions, Load the words of the records, and the fetch of a word
its instruction. -/
theorem assembledProgramIsFetchedBack : Obligations.AssembledProgramIsFetchedBack := by
  intro rs bytes s hassemble hfits
  obtain ⟨is, hall, rfl⟩ := assemble_eq_ok.mp hassemble
  have hlength : is.length = rs.length := (validateAll_eq_ok.mp hall).length_eq.symm
  have hload : s.load (is.flatMap encodeBytes) = (.ok, s.loaded (is.map encode)) :=
    State.load_of_programWords (programWords_flatMap_encodeBytes is) (by simpa [hlength] using hfits)
  refine ⟨is, _, hall, hlength, hload, fun u hcfg hmem => fetchInstr_of_loaded ?_ hmem⟩
  rw [hcfg, State.loaded_cfg, hlength]
  exact hfits

end Sys2Proof.Machine
end
